-- ==== Sys2Proof/Word.lean ====
section
/-!
DEFINITION. The widths of the machine's values (spec/00_scope.md R4, R6: every quantity is an unsigned integer of a
stated width).
-/

namespace Sys2Proof

/-- An 8-bit value: a general register, a timer, a memory cell (R10, R21, R22, R40). -/
abbrev Byte := BitVec 8

/-- A 16-bit value: an opcode, `I`, `PC`, a stack slot (R60, R13, R14, R19). -/
abbrev Word := BitVec 16

/-- A 12-bit address field `nnn` (R61). -/
abbrev Addr := BitVec 12

/-- A 4-bit field: a register index `x` or `y`, a sprite height `n`, a key number (R61, R24). -/
abbrev Nibble := BitVec 4

/-- A display row; bit `63 - c` is column `c` (R23). -/
abbrev Row := BitVec 64

end Sys2Proof
end

