-- ==== Sys2Proof/Config.lean ====
section
/-!
DEFINITION. What an implementation fixes (spec/00_scope.md R4): the font parameter `FONT`, the load address, the size of
the program area, and the random generator as a free value.
-/

namespace Sys2Proof

/-- `RandomByte()`: the byte of draw number `n`. FREE VALUE: no body, so nothing can be proved about any byte of it
(R27, U10; notes/assumptions/1.md). -/
opaque Config.randomByte : Nat → Byte

/-- Glyphs 0 to 3 of the default `FONT` (R42). Glyph 0 is fixed by the source; the others are the spec's default, from
general knowledge. PRESUMED, unsafe: notes/assumptions/2.md. -/
def Config.font0to3 : List Byte :=
  [0xF0, 0x90, 0x90, 0x90, 0xF0] ++ [0x20, 0x60, 0x20, 0x20, 0x70] ++
  [0xF0, 0x10, 0xF0, 0x80, 0xF0] ++ [0xF0, 0x10, 0xF0, 0x10, 0xF0]

/-- Glyphs 4 to 7 of the default `FONT` (R42). -/
def Config.font4to7 : List Byte :=
  [0x90, 0x90, 0xF0, 0x10, 0x10] ++ [0xF0, 0x80, 0xF0, 0x10, 0xF0] ++
  [0xF0, 0x80, 0xF0, 0x90, 0xF0] ++ [0xF0, 0x10, 0x20, 0x40, 0x40]

/-- Glyphs 8 to B of the default `FONT` (R42). -/
def Config.font8toB : List Byte :=
  [0xF0, 0x90, 0xF0, 0x90, 0xF0] ++ [0xF0, 0x90, 0xF0, 0x10, 0xF0] ++
  [0xF0, 0x90, 0xF0, 0x90, 0x90] ++ [0xE0, 0x90, 0xE0, 0x90, 0xE0]

/-- Glyphs C to F of the default `FONT` (R42). -/
def Config.fontCtoF : List Byte :=
  [0xF0, 0x80, 0x80, 0x80, 0xF0] ++ [0xE0, 0x90, 0x90, 0x90, 0xE0] ++
  [0xF0, 0x80, 0xF0, 0x80, 0xF0] ++ [0xF0, 0x80, 0xF0, 0x80, 0x80]

/-- The 80 bytes of the default `FONT`, from address 0x000 up (R42). -/
def Config.fontTable : List Byte :=
  Config.font0to3 ++ Config.font4to7 ++ Config.font8toB ++ Config.fontCtoF

/-- The values of the parameter `FONT`: 16 glyphs of 5 bytes. The spec leaves it OPEN (R4, D22), so it is an argument of
what depends on it: `Reset`, the state after reset and schedules of operations (Machine/HostOps.lean). -/
abbrev Font := Vector Byte 80

/-- `FONT` at its default (R4, R42, D22; notes/assumptions/2.md). -/
def Config.font : Font := ⟨Config.fontTable.toArray, by decide⟩

/-- `ROM_BASE`: where `LoadROM` copies to (R4, R191). -/
def Config.romBase : Nat := 0x200

/-- `ROM_MAX`: the longest ROM image in bytes (R4, R191). -/
def Config.romMax : Nat := 3584

end Sys2Proof
end

