-- ==== Sys2Proof/Syntax.lean ====
section
/-!
DEFINITION. The instructions as syntax: one constructor of `Instr` per row of spec/opcode_table.json (R65), the
canonical names (R70), the field kinds (R61) and the operand form the assembler works on (R76).
-/

namespace Sys2Proof

/-- The operand fields of R61. `ignore` contributes no bits. -/
inductive Field where
  | addr
  | x
  | y
  | byte
  | nibble
  | ignore
  deriving DecidableEq, Repr

/-- The canonical instruction names of R65 and R70, in the order of R65. -/
inductive Name where
  | cls | ret | jp | call | seByte | sneByte | seReg | ldByte | addByte
  | ldReg | orReg | andReg | xorReg | addReg | subReg | shr | subn | shl | sneReg
  | ldI | jpV0 | rnd | drw | skp | sknp
  | ldVxDT | ldVxK | ldDTVx | ldSTVx | addIVx | ldF | ldB | ldMemVx | ldVxMem
  deriving DecidableEq, Repr

/-- The 34 instructions of R65 with their operands as the fields of R61 give them. -/
inductive Instr where
  /-- `00E0` CLS (R150). -/
  | cls
  /-- `00EE` RET (R100). -/
  | ret
  /-- `1nnn` JP addr (R101). -/
  | jp (addr : Addr)
  /-- `2nnn` CALL addr (R102). -/
  | call (addr : Addr)
  /-- `3xkk` SE Vx, byte (R103). -/
  | seByte (x : Nibble) (kk : Byte)
  /-- `4xkk` SNE Vx, byte (R104). -/
  | sneByte (x : Nibble) (kk : Byte)
  /-- `5xy0` SE Vx, Vy (R105). -/
  | seReg (x y : Nibble)
  /-- `6xkk` LD Vx, byte (R120). -/
  | ldByte (x : Nibble) (kk : Byte)
  /-- `7xkk` ADD Vx, byte (R121). -/
  | addByte (x : Nibble) (kk : Byte)
  /-- `8xy0` LD Vx, Vy (R122). -/
  | ldReg (x y : Nibble)
  /-- `8xy1` OR Vx, Vy (R123). -/
  | orReg (x y : Nibble)
  /-- `8xy2` AND Vx, Vy (R124). -/
  | andReg (x y : Nibble)
  /-- `8xy3` XOR Vx, Vy (R125). -/
  | xorReg (x y : Nibble)
  /-- `8xy4` ADD Vx, Vy (R126). -/
  | addReg (x y : Nibble)
  /-- `8xy5` SUB Vx, Vy (R127). -/
  | subReg (x y : Nibble)
  /-- `8xy6` SHR Vx, Vy (R128): `y` is encoded and not used. -/
  | shr (x y : Nibble)
  /-- `8xy7` SUBN Vx, Vy (R129). -/
  | subn (x y : Nibble)
  /-- `8xyE` SHL Vx, Vy (R130): `y` is encoded and not used. -/
  | shl (x y : Nibble)
  /-- `9xy0` SNE Vx, Vy (R106). -/
  | sneReg (x y : Nibble)
  /-- `Annn` LD I, addr (R140). -/
  | ldI (addr : Addr)
  /-- `Bnnn` JP V0, addr (R107). -/
  | jpV0 (addr : Addr)
  /-- `Cxkk` RND Vx, byte (R131). -/
  | rnd (x : Nibble) (kk : Byte)
  /-- `Dxyn` DRW Vx, Vy, nibble (R151). -/
  | drw (x y n : Nibble)
  /-- `Ex9E` SKP Vx (R160). -/
  | skp (x : Nibble)
  /-- `ExA1` SKNP Vx (R161). -/
  | sknp (x : Nibble)
  /-- `Fx07` LD Vx, DT (R162). -/
  | ldVxDT (x : Nibble)
  /-- `Fx0A` LD Vx, K (R163). -/
  | ldVxK (x : Nibble)
  /-- `Fx15` LD DT, Vx (R164). -/
  | ldDTVx (x : Nibble)
  /-- `Fx18` LD ST, Vx (R165). -/
  | ldSTVx (x : Nibble)
  /-- `Fx1E` ADD I, Vx (R141). -/
  | addIVx (x : Nibble)
  /-- `Fx29` LD F, Vx (R142). -/
  | ldF (x : Nibble)
  /-- `Fx33` LD B, Vx (R143). -/
  | ldB (x : Nibble)
  /-- `Fx55` LD [I], Vx (R144). -/
  | ldMemVx (x : Nibble)
  /-- `Fx65` LD Vx, [I] (R145). -/
  | ldVxMem (x : Nibble)
  deriving DecidableEq, Repr

/-- An instruction as the assembler holds it before folding (R76): a canonical name and the numbers its operand tokens
gave, in text order. Nothing bounds the numbers: WellFormed.lean says when they fit their fields. -/
structure AsmInstr where
  name : Name
  operands : List Nat
  deriving DecidableEq, Repr

end Sys2Proof
end

