-- ==== Sys2Proof/Decode.lean ====
section
/-!
DEFINITION. The decoder (spec/30_encoding.md R64), the encoder tables (R65, R70, R71) and the encoder (R76). The
interpreter, the assembler and the disassembler share these tables (00_scope.md R2).
-/

namespace Sys2Proof

/-! ## Fields (R61) -/

/-- `addr`: `op & 0x0FFF`. -/
def fieldAddr (op : Word) : Addr := (op &&& 0x0FFF#16).setWidth 12

/-- `x`: `(op & 0x0F00) >> 8`. -/
def fieldX (op : Word) : Nibble := ((op &&& 0x0F00#16) >>> 8).setWidth 4

/-- `y`: `(op & 0x00F0) >> 4`. -/
def fieldY (op : Word) : Nibble := ((op &&& 0x00F0#16) >>> 4).setWidth 4

/-- `byte`: `op & 0x00FF`. -/
def fieldByte (op : Word) : Byte := (op &&& 0x00FF#16).setWidth 8

/-- `nibble`: `op & 0x000F`. -/
def fieldNibble (op : Word) : Nibble := (op &&& 0x000F#16).setWidth 4

/-- `op[15:12]`, always part of the selector (R61). -/
def topNibble (op : Word) : Nibble := (op >>> 12).setWidth 4

/-! ## The decoder -/

/-- Why a word is `UNRECOGNISED`: the family of R67 it falls in, or too few bytes to hold a word. -/
inductive DecodeError where
  /-- `0nnn` other than `00E0` and `00EE`. -/
  | family0
  /-- `8xyN` with `N` in 8 to D or F. -/
  | family8
  /-- `Exkk` with `kk` neither 9E nor A1. -/
  | familyE
  /-- `Fxkk` with `kk` none of the nine bytes of R64. -/
  | familyF
  /-- Fewer than two bytes were given (R60: every instruction is two bytes). -/
  | truncated
  deriving DecidableEq, Repr

/-- The `0x8` family, told apart by the bottom nibble (R64). -/
def nameOf8 (op : Word) : Except DecodeError Name :=
  match fieldNibble op with
  | 0x0#4 => .ok .ldReg
  | 0x1#4 => .ok .orReg
  | 0x2#4 => .ok .andReg
  | 0x3#4 => .ok .xorReg
  | 0x4#4 => .ok .addReg
  | 0x5#4 => .ok .subReg
  | 0x6#4 => .ok .shr
  | 0x7#4 => .ok .subn
  | 0xE#4 => .ok .shl
  | _ => .error .family8

/-- The `0xE` family, told apart by the whole bottom byte (R64, decision D11). -/
def nameOfE (op : Word) : Except DecodeError Name :=
  match fieldByte op with
  | 0x9E#8 => .ok .skp
  | 0xA1#8 => .ok .sknp
  | _ => .error .familyE

/-- The `0xF` family, told apart by the bottom byte (R64). -/
def nameOfF (op : Word) : Except DecodeError Name :=
  match fieldByte op with
  | 0x07#8 => .ok .ldVxDT
  | 0x0A#8 => .ok .ldVxK
  | 0x15#8 => .ok .ldDTVx
  | 0x18#8 => .ok .ldSTVx
  | 0x1E#8 => .ok .addIVx
  | 0x29#8 => .ok .ldF
  | 0x33#8 => .ok .ldB
  | 0x55#8 => .ok .ldMemVx
  | 0x65#8 => .ok .ldVxMem
  | _ => .error .familyF

/-- The decode algorithm of R64: the canonical name of a word, total on all 65536 values. The bottom nibble of the
`0x5` and `0x9` families is not examined (R66). -/
def nameOf (op : Word) : Except DecodeError Name :=
  if op = 0x00E0#16 then .ok .cls
  else if op = 0x00EE#16 then .ok .ret
  else
    match topNibble op with
    | 0x0#4 => .error .family0
    | 0x1#4 => .ok .jp
    | 0x2#4 => .ok .call
    | 0x3#4 => .ok .seByte
    | 0x4#4 => .ok .sneByte
    | 0x5#4 => .ok .seReg
    | 0x6#4 => .ok .ldByte
    | 0x7#4 => .ok .addByte
    | 0x8#4 => nameOf8 op
    | 0x9#4 => .ok .sneReg
    | 0xA#4 => .ok .ldI
    | 0xB#4 => .ok .jpV0
    | 0xC#4 => .ok .rnd
    | 0xD#4 => .ok .drw
    | 0xE#4 => nameOfE op
    | _ => nameOfF op

/-- The instruction of a given name whose operand fields are those of the word (R62: the name's format says which). -/
def instrOf (n : Name) (op : Word) : Instr :=
  match n with
  | .cls => .cls
  | .ret => .ret
  | .jp => .jp (fieldAddr op)
  | .call => .call (fieldAddr op)
  | .seByte => .seByte (fieldX op) (fieldByte op)
  | .sneByte => .sneByte (fieldX op) (fieldByte op)
  | .seReg => .seReg (fieldX op) (fieldY op)
  | .ldByte => .ldByte (fieldX op) (fieldByte op)
  | .addByte => .addByte (fieldX op) (fieldByte op)
  | .ldReg => .ldReg (fieldX op) (fieldY op)
  | .orReg => .orReg (fieldX op) (fieldY op)
  | .andReg => .andReg (fieldX op) (fieldY op)
  | .xorReg => .xorReg (fieldX op) (fieldY op)
  | .addReg => .addReg (fieldX op) (fieldY op)
  | .subReg => .subReg (fieldX op) (fieldY op)
  | .shr => .shr (fieldX op) (fieldY op)
  | .subn => .subn (fieldX op) (fieldY op)
  | .shl => .shl (fieldX op) (fieldY op)
  | .sneReg => .sneReg (fieldX op) (fieldY op)
  | .ldI => .ldI (fieldAddr op)
  | .jpV0 => .jpV0 (fieldAddr op)
  | .rnd => .rnd (fieldX op) (fieldByte op)
  | .drw => .drw (fieldX op) (fieldY op) (fieldNibble op)
  | .skp => .skp (fieldX op)
  | .sknp => .sknp (fieldX op)
  | .ldVxDT => .ldVxDT (fieldX op)
  | .ldVxK => .ldVxK (fieldX op)
  | .ldDTVx => .ldDTVx (fieldX op)
  | .ldSTVx => .ldSTVx (fieldX op)
  | .addIVx => .addIVx (fieldX op)
  | .ldF => .ldF (fieldX op)
  | .ldB => .ldB (fieldX op)
  | .ldMemVx => .ldMemVx (fieldX op)
  | .ldVxMem => .ldVxMem (fieldX op)

/-- `Decode(op)` (R64): the instruction a word stands for, or why it is unrecognised. -/
def decode (op : Word) : Except DecodeError Instr :=
  match nameOf op with
  | .ok n => .ok (instrOf n op)
  | .error e => .error e

/-- The word two bytes make in memory order, the first the high byte (R43). -/
def wordOfBytes (hi lo : Byte) : Word := (hi ++ lo : BitVec (8 + 8))

/-- Decoding at the head of a byte stream: the instruction and the bytes after it. -/
def decodeBytes : List Byte → Except DecodeError (Instr × List Byte)
  | hi :: lo :: rest =>
    match decode (wordOfBytes hi lo) with
    | .ok i => .ok (i, rest)
    | .error e => .error e
  | _ => .error .truncated

/-! ## The encoder tables (R65, R71) -/

/-- Base opcode bits: the `match` column of R65. -/
def Name.base : Name → Word
  | .cls => 0x00E0#16
  | .ret => 0x00EE#16
  | .jp => 0x1000#16
  | .call => 0x2000#16
  | .seByte => 0x3000#16
  | .sneByte => 0x4000#16
  | .seReg => 0x5000#16
  | .ldByte => 0x6000#16
  | .addByte => 0x7000#16
  | .ldReg => 0x8000#16
  | .orReg => 0x8001#16
  | .andReg => 0x8002#16
  | .xorReg => 0x8003#16
  | .addReg => 0x8004#16
  | .subReg => 0x8005#16
  | .shr => 0x8006#16
  | .subn => 0x8007#16
  | .shl => 0x800E#16
  | .sneReg => 0x9000#16
  | .ldI => 0xA000#16
  | .jpV0 => 0xB000#16
  | .rnd => 0xC000#16
  | .drw => 0xD000#16
  | .skp => 0xE09E#16
  | .sknp => 0xE0A1#16
  | .ldVxDT => 0xF007#16
  | .ldVxK => 0xF00A#16
  | .ldDTVx => 0xF015#16
  | .ldSTVx => 0xF018#16
  | .addIVx => 0xF01E#16
  | .ldF => 0xF029#16
  | .ldB => 0xF033#16
  | .ldMemVx => 0xF055#16
  | .ldVxMem => 0xF065#16

/-- The `mask` column of R65. -/
def Name.mask : Name → Word
  | .cls => 0xFFFF#16
  | .ret => 0xFFFF#16
  | .jp => 0xF000#16
  | .call => 0xF000#16
  | .seByte => 0xF000#16
  | .sneByte => 0xF000#16
  | .seReg => 0xF000#16
  | .ldByte => 0xF000#16
  | .addByte => 0xF000#16
  | .ldReg => 0xF00F#16
  | .orReg => 0xF00F#16
  | .andReg => 0xF00F#16
  | .xorReg => 0xF00F#16
  | .addReg => 0xF00F#16
  | .subReg => 0xF00F#16
  | .shr => 0xF00F#16
  | .subn => 0xF00F#16
  | .shl => 0xF00F#16
  | .sneReg => 0xF000#16
  | .ldI => 0xF000#16
  | .jpV0 => 0xF000#16
  | .rnd => 0xF000#16
  | .drw => 0xF000#16
  | .skp => 0xF0FF#16
  | .sknp => 0xF0FF#16
  | .ldVxDT => 0xF0FF#16
  | .ldVxK => 0xF0FF#16
  | .ldDTVx => 0xF0FF#16
  | .ldSTVx => 0xF0FF#16
  | .addIVx => 0xF0FF#16
  | .ldF => 0xF0FF#16
  | .ldB => 0xF0FF#16
  | .ldMemVx => 0xF0FF#16
  | .ldVxMem => 0xF0FF#16

/-- The ordered field list of R71. -/
def Name.fields : Name → List Field
  | .cls => []
  | .ret => []
  | .jp => [.addr]
  | .call => [.addr]
  | .seByte => [.x, .byte]
  | .sneByte => [.x, .byte]
  | .seReg => [.x, .y]
  | .ldByte => [.x, .byte]
  | .addByte => [.x, .byte]
  | .ldReg => [.x, .y]
  | .orReg => [.x, .y]
  | .andReg => [.x, .y]
  | .xorReg => [.x, .y]
  | .addReg => [.x, .y]
  | .subReg => [.x, .y]
  | .shr => [.x, .y]
  | .subn => [.x, .y]
  | .shl => [.x, .y]
  | .sneReg => [.x, .y]
  | .ldI => [.addr]
  | .jpV0 => [.ignore, .addr]
  | .rnd => [.x, .byte]
  | .drw => [.x, .y, .nibble]
  | .skp => [.x]
  | .sknp => [.x]
  | .ldVxDT => [.x]
  | .ldVxK => [.x]
  | .ldDTVx => [.x]
  | .ldSTVx => [.x]
  | .addIVx => [.x]
  | .ldF => [.x]
  | .ldB => [.x]
  | .ldMemVx => [.x]
  | .ldVxMem => [.x]

/-- The canonical name as text (R65, R70). -/
def Name.text : Name → String
  | .cls => "CLS"
  | .ret => "RET"
  | .jp => "JPaddr"
  | .call => "CALLaddr"
  | .seByte => "SEVxbyte"
  | .sneByte => "SNEVxbyte"
  | .seReg => "SEVxVy"
  | .ldByte => "LDVxbyte"
  | .addByte => "ADDVxbyte"
  | .ldReg => "LDVxVy"
  | .orReg => "ORVxVy"
  | .andReg => "ANDVxVy"
  | .xorReg => "XORVxVy"
  | .addReg => "ADDVxVy"
  | .subReg => "SUBVxVy"
  | .shr => "SHRVxVy"
  | .subn => "SUBNVxVy"
  | .shl => "SHLVxVy"
  | .sneReg => "SNEVxVy"
  | .ldI => "LDIaddr"
  | .jpV0 => "JPV0addr"
  | .rnd => "RNDVxbyte"
  | .drw => "DRWVxVynibble"
  | .skp => "SKPVx"
  | .sknp => "SKNPVx"
  | .ldVxDT => "LDVxDT"
  | .ldVxK => "LDVxK"
  | .ldDTVx => "LDDTVx"
  | .ldSTVx => "LDSTVx"
  | .addIVx => "ADDIVx"
  | .ldF => "LDFVx"
  | .ldB => "LDBVx"
  | .ldMemVx => "LD[I]Vx"
  | .ldVxMem => "LDVx[I]"

/-! ## The encoder -/

/-- The bits an operand contributes to the word (R76); a value too large for its field is truncated by the mask. -/
def encodeField (f : Field) (v : Nat) : Word :=
  match f with
  | .addr => BitVec.ofNat 16 v &&& 0x0FFF#16
  | .byte => BitVec.ofNat 16 v &&& 0x00FF#16
  | .x => (BitVec.ofNat 16 v <<< 8) &&& 0x0F00#16
  | .y => (BitVec.ofNat 16 v <<< 4) &&& 0x00F0#16
  | .nibble => BitVec.ofNat 16 v &&& 0x000F#16
  | .ignore => 0x0000#16

/-- Folding operands into the result in field-list order, one to one (R76). -/
def encodeOperands (acc : Word) : List Field → List Nat → Word
  | f :: fs, v :: vs => encodeOperands (acc ||| encodeField f v) fs vs
  | _, _ => acc

/-- Base bits with the operands folded in (R76). -/
def AsmInstr.encode (a : AsmInstr) : Word := encodeOperands a.name.base a.name.fields a.operands

/-- The canonical name of an instruction. -/
def Instr.name : Instr → Name
  | .cls => .cls
  | .ret => .ret
  | .jp _ => .jp
  | .call _ => .call
  | .seByte _ _ => .seByte
  | .sneByte _ _ => .sneByte
  | .seReg _ _ => .seReg
  | .ldByte _ _ => .ldByte
  | .addByte _ _ => .addByte
  | .ldReg _ _ => .ldReg
  | .orReg _ _ => .orReg
  | .andReg _ _ => .andReg
  | .xorReg _ _ => .xorReg
  | .addReg _ _ => .addReg
  | .subReg _ _ => .subReg
  | .shr _ _ => .shr
  | .subn _ _ => .subn
  | .shl _ _ => .shl
  | .sneReg _ _ => .sneReg
  | .ldI _ => .ldI
  | .jpV0 _ => .jpV0
  | .rnd _ _ => .rnd
  | .drw _ _ _ => .drw
  | .skp _ => .skp
  | .sknp _ => .sknp
  | .ldVxDT _ => .ldVxDT
  | .ldVxK _ => .ldVxK
  | .ldDTVx _ => .ldDTVx
  | .ldSTVx _ => .ldSTVx
  | .addIVx _ => .addIVx
  | .ldF _ => .ldF
  | .ldB _ => .ldB
  | .ldMemVx _ => .ldMemVx
  | .ldVxMem _ => .ldVxMem

/-- The operands of an instruction in field-list order (R71); the `ignore` operand of `JP V0, addr` is 0, the number the
extractor collects for the token `V0` (R76). -/
def Instr.operands : Instr → List Nat
  | .cls => []
  | .ret => []
  | .jp addr => [addr.toNat]
  | .call addr => [addr.toNat]
  | .seByte x kk => [x.toNat, kk.toNat]
  | .sneByte x kk => [x.toNat, kk.toNat]
  | .seReg x y => [x.toNat, y.toNat]
  | .ldByte x kk => [x.toNat, kk.toNat]
  | .addByte x kk => [x.toNat, kk.toNat]
  | .ldReg x y => [x.toNat, y.toNat]
  | .orReg x y => [x.toNat, y.toNat]
  | .andReg x y => [x.toNat, y.toNat]
  | .xorReg x y => [x.toNat, y.toNat]
  | .addReg x y => [x.toNat, y.toNat]
  | .subReg x y => [x.toNat, y.toNat]
  | .shr x y => [x.toNat, y.toNat]
  | .subn x y => [x.toNat, y.toNat]
  | .shl x y => [x.toNat, y.toNat]
  | .sneReg x y => [x.toNat, y.toNat]
  | .ldI addr => [addr.toNat]
  | .jpV0 addr => [0, addr.toNat]
  | .rnd x kk => [x.toNat, kk.toNat]
  | .drw x y n => [x.toNat, y.toNat, n.toNat]
  | .skp x => [x.toNat]
  | .sknp x => [x.toNat]
  | .ldVxDT x => [x.toNat]
  | .ldVxK x => [x.toNat]
  | .ldDTVx x => [x.toNat]
  | .ldSTVx x => [x.toNat]
  | .addIVx x => [x.toNat]
  | .ldF x => [x.toNat]
  | .ldB x => [x.toNat]
  | .ldMemVx x => [x.toNat]
  | .ldVxMem x => [x.toNat]

/-- The operand form of an instruction. -/
def Instr.asm (i : Instr) : AsmInstr := { name := i.name, operands := i.operands }

/-- The canonical word of an instruction (R65, R66, R76). -/
def encode (i : Instr) : Word := i.asm.encode

/-- A word as the two bytes it occupies in memory and in a ROM file, high byte first (R43, R80). -/
def bytesOfWord (w : Word) : List Byte := [(w >>> 8).setWidth 8, w.setWidth 8]

/-- The two bytes of an instruction. -/
def encodeBytes (i : Instr) : List Byte := bytesOfWord (encode i)

/-! ## The host's reading of the opcode table -/

/-- The word whose low `nbits` bits are those of `w` and whose other bits are 0. -/
def tableWord (nbits w : Nat) : Word := BitVec.ofNat 16 (w % 2 ^ nbits)

/-- The instruction the decoder reads from an instruction with the bits `w`, laid out in memory order. -/
def decodeTableWord (nbits w : Nat) : Option Instr :=
  match decodeBytes (bytesOfWord (tableWord nbits w)) with
  | .ok (i, _) => some i
  | .error _ => none

end Sys2Proof
end

