-- ==== Sys2Proof/Machine/State.lean ====
section
/-!
DEFINITION. The machine state (spec/10_state.md R10 to R29), the reasons a step or a host operation can stop, and the
state after reset (R28, R190).
-/

namespace Sys2Proof.Machine

/-- The memory: the cells that differ from the reset contents, addresses strictly rising and below 4096
(`Memory.wf` in Machine/Ops.lean). -/
abbrev Memory := List Host.Cell

/-- The values of the FAULT register (R26): 0, 1 and 2; 3 is never produced, so a three-valued type holds it (U34). -/
inductive FaultCode where
  /-- 0: running. -/
  | none
  /-- 1: a `CALL` found `SP = 15` (R171). -/
  | stackOverflow
  /-- 2: a `RET` found `SP = 0` (R171). -/
  | stackUnderflow
  deriving DecidableEq, Repr

/-- The whole machine state (R10 to R27, R29). -/
structure State where
  /-- `V[0]` to `V[15]` (R10); `V[15]` is `VF` (R11). -/
  v : Vector Byte 16
  /-- The address register `I` (R13). -/
  i : Word
  /-- The program counter (R14). -/
  pc : Word
  /-- The stack pointer (R18). -/
  sp : Byte
  /-- The return stack (R19). -/
  stack : Vector Word 16
  /-- The delay timer (R21). -/
  dt : Byte
  /-- The sound timer (R22). -/
  st : Byte
  /-- The 4096 bytes of memory (R25, R40). -/
  mem : Memory
  /-- The display rows, row 0 the top (R23). -/
  disp : Vector Row 32
  /-- The keyboard, true = pressed (R24). -/
  key : Vector Bool 16
  /-- The register FAULT (R26). -/
  faultReg : FaultCode
  /-- The model's own field: how many random bytes have been drawn (R27; notes/assumptions/1.md). -/
  draws : Nat
  deriving DecidableEq, Repr

/-- Reasons a step stops the model with a fault: none. The two faults of the spec are recorded in the register FAULT and
the machine goes on to a next state (R172, R173); no access and no arithmetic faults (R170). Nobody raises one: safe. -/
inductive Fault where
  deriving DecidableEq, Repr

/-- Reasons an operation is refused. No step of the core is ever refused. -/
inductive Refusal where
  /-- Raised by an arm of `exec` whose instruction has no meaning yet; no arm does so now. Safe. -/
  | notModelled (mnemonic : String)
  /-- Raised by the host operation `LoadROM` on more than 3584 bytes: the load is refused and nothing is written (R191).
  Safe: the spec itself refuses. -/
  | romTooLong
  /-- Raised by the host operation `Poke` with a value outside the legal range of its target, or at FAULT, which has no
  mutator (R182). Safe: the spec itself refuses. -/
  | pokeRefused
  deriving DecidableEq, Repr

/-- The machine right after reset (R28, R190): memory at its reset contents with the default `FONT`, nothing drawn yet. The
state after reset with any other `FONT` is `resetWithFont` (Machine/HostOps.lean; notes/assumptions/2.md). -/
def State.reset : State where
  v := Vector.replicate 16 0#8
  i := 0#16
  pc := 0x200#16
  sp := 0#8
  stack := Vector.replicate 16 0#16
  dt := 0#8
  st := 0#8
  mem := []
  disp := Vector.replicate 32 0#64
  key := Vector.replicate 16 false
  faultReg := .none
  draws := 0

end Sys2Proof.Machine
end

