-- ==== Sys2Proof/Machine/Ops.lean ====
section
/-!
DEFINITION. The named operations over memory and registers: every read and write of a piece of state goes through one of
them. Fault entry (spec/60_exceptions.md R172) is `State.raise`; there is no return from a fault (R173).
-/

namespace Sys2Proof.Machine

/-! ## Memory (spec/20_memory.md) -/

/-- What a cell holds after reset with the default `FONT`, and so what an address the memory does not list reads as (R28,
R42): the font at 0x000 to 0x04F, 0 elsewhere. With another `FONT` the cells that differ are listed
(notes/assumptions/10.md). -/
def Memory.unlisted (a : Nat) : Byte := Config.fontTable.getD a 0

/-- The listed byte of a cell, or its reset contents. -/
def Memory.find (a : Nat) : Memory → Byte
  | [] => Memory.unlisted a
  | c :: m => if c.1 = a then c.2 else Memory.find a m

/-- `MemRead(a, 1)`: the address is reduced modulo 4096 (R44). -/
def Memory.read (m : Memory) (a : Nat) : Byte := Memory.find (a % 4096) m

/-- Putting a byte into a cell: the cell is listed in its place, or not at all when the byte is its reset contents. -/
def Memory.put (a : Nat) (b : Byte) : Memory → Memory
  | [] => if b = Memory.unlisted a then [] else [(a, b)]
  | c :: m =>
    if a < c.1 then
      if b = Memory.unlisted a then c :: m else (a, b) :: c :: m
    else if a = c.1 then
      if b = Memory.unlisted a then m else (a, b) :: m
    else c :: Memory.put a b m

/-- `MemWrite(a, 1, b)`: the address is reduced modulo 4096 (R44). -/
def Memory.write (m : Memory) (a : Nat) (b : Byte) : Memory := Memory.put (a % 4096) b m

/-- Writing bytes at ascending addresses, in order (R46, R191). -/
def Memory.writeList (m : Memory) (a : Nat) : List Byte → Memory
  | [] => m
  | b :: bs => Memory.writeList (m.write a b) (a + 1) bs

/-- Addresses rise strictly from `lo`, stay below 4096, and no cell is at its reset contents. -/
def Memory.wfFrom (lo : Nat) : Memory → Bool
  | [] => true
  | c :: m => decide (lo ≤ c.1) && decide (c.1 < 4096) && decide (c.2 ≠ Memory.unlisted c.1) && Memory.wfFrom (c.1 + 1) m

/-- The canonical form of a memory (notes/assumptions/10.md). -/
def Memory.wf (m : Memory) : Bool := Memory.wfFrom 0 m

/-! ## Registers (spec/10_state.md) -/

/-- `V[x]` (R10). -/
def State.readV (s : State) (x : Nibble) : Byte := s.v[x.toNat]

/-- `V[x] <- b` (R10). -/
def State.writeV (s : State) (x : Nibble) (b : Byte) : State := { s with v := s.v.set x.toNat b }

/-- `V[x] <- b`, then `V[15] <- flag`: the flag is written last (R12). -/
def State.writeVFlag (s : State) (x : Nibble) (b flag : Byte) : State := (s.writeV x b).writeV 15#4 flag

/-- The masking of every write of `PC` and `I`: `w & 0x0FFF` (R13, R14, D2). -/
def mask12 (w : Word) : Word := w &&& 0x0FFF#16

/-- `I <- w` (R13). -/
def State.setI (s : State) (w : Word) : State := { s with i := mask12 w }

/-- `PC <- w` (R14). -/
def State.setPc (s : State) (w : Word) : State := { s with pc := mask12 w }

/-- `PC <- (PC + 2) & 0x0FFF`: the advance of the fetch, and a skip (R15, R108). -/
def State.advance (s : State) : State := s.setPc (s.pc + 2#16)

/-- `PC <- (PC - 2) & 0x0FFF`: undoing the advance of the fetch (R163, R172). -/
def State.retreat (s : State) : State := s.setPc (s.pc - 2#16)

/-- A skip taken when the condition holds (R108). -/
def State.skipIf (s : State) (c : Bool) : State := if c then s.advance else s

/-- `stack[k]` (R19). Only the low four bits of `k` select a slot; they are all of `k` in every state with `SP <= 15`.
DESIGN CHOICE, safe: notes/assumptions/4.md. -/
def State.readStack (s : State) (k : Byte) : Word := s.stack[k.toNat % 16]'(Nat.mod_lt _ (by decide))

/-- `stack[k] <- w` (R19). -/
def State.writeStack (s : State) (k : Byte) (w : Word) : State :=
  { s with stack := s.stack.set (k.toNat % 16) w (Nat.mod_lt _ (by decide)) }

/-- `SP <- SP + 1`, then `stack[SP] <- PC` (R102). -/
def State.push (s : State) : State := ({ s with sp := s.sp + 1#8 } : State).writeStack (s.sp + 1#8) s.pc

/-- `PC <- stack[SP] & 0x0FFF`, then `SP <- SP - 1` (R100). -/
def State.pop (s : State) : State := { s.setPc (s.readStack s.sp) with sp := s.sp - 1#8 }

/-- `key[k]` (R24). -/
def State.readKey (s : State) (k : Nibble) : Bool := s.key[k.toNat]

/-- The least pressed key, if any (R163). -/
def State.leastKey (s : State) : Option Nat := s.key.toList.findIdx? id

/-- `disp[r]`, for `r` in 0..31 (R23); no row beyond 31 exists, and it reads as dark. -/
def readRow (d : Vector Row 32) (r : Nat) : Row := (d[r]?).getD 0#64

/-- `disp[r] <- w`; a row beyond 31 is dropped (R23, R151). -/
def writeRow (d : Vector Row 32) (r : Nat) (w : Row) : Vector Row 32 := d.setIfInBounds r w

/-- `MemRead(a, 1)` on the state's memory. -/
def State.readMem (s : State) (a : Nat) : Byte := s.mem.read a

/-- `MemWrite(a, 1, b)` on the state's memory. -/
def State.writeMem (s : State) (a : Nat) (b : Byte) : State := { s with mem := s.mem.write a b }

/-- The byte of the next draw `RandomByte()` (R27). FREE VALUE: notes/assumptions/1.md. -/
def State.nextRandom (s : State) : Byte := Config.randomByte s.draws

/-- One draw has been made (R131). -/
def State.drawn (s : State) : State := { s with draws := s.draws + 1 }

/-! ## Fault entry -/

/-- `raise f` (R172): FAULT gets the code and `PC` goes back to the instruction; nothing else changes. -/
def State.raise (s : State) (f : FaultCode) : State := { s.retreat with faultReg := f }

/-- The code of a fault in the register FAULT (R26, R171). -/
def FaultCode.code : FaultCode → BitVec 2
  | .none => 0
  | .stackOverflow => 1
  | .stackUnderflow => 2

/-! ## Fetch -/

/-- `MemRead(PC, 2)`: the word at `PC`, high byte first, the second address wrapping too (R15, R43, R44). -/
def State.fetch (s : State) : Word := wordOfBytes (s.readMem s.pc.toNat) (s.readMem (s.pc.toNat + 1))

/-- A word stored at `PC` in memory order, on a core that is not halted: what the next fetch reads
(notes/assumptions/9.md). -/
def State.placeWord (s : State) (w : Word) : State :=
  { s with mem := s.mem.writeList s.pc.toNat (bytesOfWord w), faultReg := .none }

end Sys2Proof.Machine
end

