-- ==== Sys2Proof/Machine/Flags.lean ====
section
/-!
DEFINITION. The flag computations (spec/10_state.md R11): the byte each flag-writing instruction leaves in `VF`.
-/

namespace Sys2Proof.Machine

/-- A flag as the byte `VF` holds: 1 or 0 (R11). -/
def flagByte (b : Bool) : Byte := if b then 1#8 else 0#8

/-- The carry of an addition: 1 iff `a + b > 255` (R126). -/
def carryFlag (a b : Byte) : Byte := flagByte (decide (a.toNat + b.toNat > 255))

/-- Not borrow of `a - b`: 1 iff `a >= b` (R127, R129, R132). -/
def notBorrowFlag (a b : Byte) : Byte := flagByte (decide (a.toNat ≥ b.toNat))

/-- The bit a right shift moves out: bit 0 (R128). -/
def lowBit (a : Byte) : Byte := a &&& 1#8

/-- The bit a left shift moves out: bit 7 (R130). -/
def highBit (a : Byte) : Byte := (a >>> 7) &&& 1#8

/-- A collision in one row: some pixel lit in the row is lit in the mask (R151). -/
def collides (row m : Row) : Bool := decide (row &&& m ≠ 0#64)

end Sys2Proof.Machine
end

