-- ==== Sys2Proof/Machine/Operands.lean ====
section
/-!
DEFINITION. The operand forms (spec/30_encoding.md R63, spec/42_index_memory.md R146, spec/43_display.md R151,
spec/44_keyboard_timers.md R160): what an instruction computes from its fields before it acts. Register operands are
`State.readV` (Machine/Ops.lean), immediates are the fields themselves.
-/

namespace Sys2Proof.Machine

/-- The effective address of byte `k` of a transfer: `(I + k) mod 4096` (R146, R44). -/
def State.effAddr (s : State) (k : Nat) : Nat := (s.i.toNat + k) % 4096

/-- An `addr` immediate widened with zeros (R63). -/
def addrWord (a : Addr) : Word := a.setWidth 16

/-- An 8-bit value widened with zeros (R6). -/
def byteWord (b : Byte) : Word := b.setWidth 16

/-- A value 0..15 as a byte. -/
def nibbleByte (n : Nibble) : Byte := n.setWidth 8

/-- The target of `JP V0, addr`: `addr + V[0]`, before the masking of `PC` (R107). -/
def State.offsetTarget (s : State) (a : Addr) : Word := addrWord a + byteWord (s.readV 0#4)

/-- `I + V[x]`, before the masking of `I` (R141). -/
def State.indexSum (s : State) (x : Nibble) : Word := s.i + byteWord (s.readV x)

/-- The address of a font glyph: `5 * V[x]`, the whole byte multiplied (R142). -/
def glyphAddr (b : Byte) : Word := 5#16 * byteWord b

/-- The key a register names: `V[x] & 0x0F` (R160, D14). -/
def State.keyIndex (s : State) (x : Nibble) : Nibble := (s.readV x &&& 0x0F#8).setWidth 4

/-- The starting column: `V[x] mod 64` (R151). -/
def State.startCol (s : State) (x : Nibble) : Nat := (s.readV x).toNat % 64

/-- The starting row: `V[y] mod 32` (R151). -/
def State.startRow (s : State) (y : Nibble) : Nat := (s.readV y).toNat % 32

/-- A sprite byte as a row mask with bit 7 at column `x0`: `(zext_64(b) << 56) >> x0` (R151). -/
def spriteMask (b : Byte) (x0 : Nat) : Row := (b.setWidth 64 <<< 56) >>> x0

/-- The hundreds digit (R143). -/
def bcdHundreds (b : Byte) : Byte := BitVec.ofNat 8 (b.toNat / 100)

/-- The tens digit (R143). -/
def bcdTens (b : Byte) : Byte := BitVec.ofNat 8 (b.toNat / 10 % 10)

/-- The ones digit (R143). -/
def bcdOnes (b : Byte) : Byte := BitVec.ofNat 8 (b.toNat % 10)

/-- `V[0]` to `V[n - 1]` stored at `I`, `I + 1`, ... in ascending order (R144), on a memory. -/
def State.storeRange (s : State) : Nat → Memory
  | 0 => s.mem
  | n + 1 => (s.storeRange n).write (s.effAddr n) (s.readV (BitVec.ofNat 4 n))

/-- `V[0]` to `V[n - 1]` loaded from `I`, `I + 1`, ... in ascending order (R145). -/
def State.loadRange (s : State) : Nat → State
  | 0 => s
  | n + 1 => (s.loadRange n).writeV (BitVec.ofNat 4 n) (s.readMem (s.effAddr n))

end Sys2Proof.Machine
end

