-- ==== Sys2Proof/Machine/Display.lean ====
section
/-!
DEFINITION. The display instructions (spec/43_display.md R150 to R152).
-/

namespace Sys2Proof.Machine

/-- Drawing one sprite row on display row `r` (R151): rows past 31 are dropped, the rest is XORed in, and a collision is
tested against the row before it changes. -/
def drawRow (m : Row) (r : Nat) (acc : Vector Row 32 × Bool) : Vector Row 32 × Bool :=
  if r ≤ 31 then
    (writeRow acc.1 r (readRow acc.1 r ^^^ m), acc.2 || collides (readRow acc.1 r) m)
  else acc

/-- Drawing sprite rows 0 to `n - 1`, in order, with the sprite's start at column `x0` and row `y0` (R151): the display
and whether anything collided. -/
def State.drawSprite (s : State) (x0 y0 : Nat) : Nat → Vector Row 32 × Bool
  | 0 => (s.disp, false)
  | n + 1 => drawRow (spriteMask (s.readMem (s.effAddr n)) x0) (y0 + n) (s.drawSprite x0 y0 n)

/-- `00E0` CLS (R150). -/
def execCls (s : State) : Host.Outcome State Fault Refusal :=
  .next { s with disp := Vector.replicate 32 0#64 }

/-- `Dxyn` DRW Vx, Vy, nibble (R151): the coordinates are read first, `VF` is written last. -/
def execDrw (x y n : Nibble) (s : State) : Host.Outcome State Fault Refusal :=
  .next (({ s with disp := (s.drawSprite (s.startCol x) (s.startRow y) n.toNat).1 } : State).writeV 15#4
    (flagByte (s.drawSprite (s.startCol x) (s.startRow y) n.toNat).2))

end Sys2Proof.Machine
end

