-- ==== Sys2Proof/Machine/IndexMemory.lean ====
section
/-!
DEFINITION. The address register and memory transfers (spec/42_index_memory.md R140 to R146).
-/

namespace Sys2Proof.Machine

/-- `Annn` LD I, addr (R140). -/
def execLdI (addr : Addr) (s : State) : Host.Outcome State Fault Refusal :=
  .next (s.setI (addrWord addr))

/-- `Fx1E` ADD I, Vx (R141): no flag. -/
def execAddIVx (x : Nibble) (s : State) : Host.Outcome State Fault Refusal :=
  .next (s.setI (s.indexSum x))

/-- `Fx29` LD F, Vx (R142). -/
def execLdF (x : Nibble) (s : State) : Host.Outcome State Fault Refusal :=
  .next (s.setI (glyphAddr (s.readV x)))

/-- `Fx33` LD B, Vx (R143): hundreds, tens, ones at `I`, `I + 1`, `I + 2`. -/
def execLdB (x : Nibble) (s : State) : Host.Outcome State Fault Refusal :=
  .next (((s.writeMem (s.effAddr 0) (bcdHundreds (s.readV x))).writeMem
    (s.effAddr 1) (bcdTens (s.readV x))).writeMem (s.effAddr 2) (bcdOnes (s.readV x)))

/-- `Fx55` LD [I], Vx (R144): `I` is unchanged. -/
def execLdMemVx (x : Nibble) (s : State) : Host.Outcome State Fault Refusal :=
  .next { s with mem := s.storeRange (x.toNat + 1) }

/-- `Fx65` LD Vx, [I] (R145): `I` is unchanged. -/
def execLdVxMem (x : Nibble) (s : State) : Host.Outcome State Fault Refusal :=
  .next (s.loadRange (x.toNat + 1))

end Sys2Proof.Machine
end

