-- ==== Sys2Proof/Machine/KeyboardTimers.lean ====
section
/-!
DEFINITION. Keyboard and timer instructions (spec/44_keyboard_timers.md R160 to R165). `PC` already holds the address of
the next instruction.
-/

namespace Sys2Proof.Machine

/-- `Ex9E` SKP Vx (R160). -/
def execSkp (x : Nibble) (s : State) : Host.Outcome State Fault Refusal :=
  .next (s.skipIf (s.readKey (s.keyIndex x)))

/-- `ExA1` SKNP Vx (R161). -/
def execSknp (x : Nibble) (s : State) : Host.Outcome State Fault Refusal :=
  .next (s.skipIf (!s.readKey (s.keyIndex x)))

/-- `Fx07` LD Vx, DT (R162). -/
def execLdVxDT (x : Nibble) (s : State) : Host.Outcome State Fault Refusal :=
  .next (s.writeV x s.dt)

/-- `Fx0A` LD Vx, K (R163): the least pressed key, or a hold. -/
def execLdVxK (x : Nibble) (s : State) : Host.Outcome State Fault Refusal :=
  match s.leastKey with
  | some k => .next (s.writeV x (BitVec.ofNat 8 k))
  | none => .next s.retreat

/-- `Fx15` LD DT, Vx (R164). -/
def execLdDTVx (x : Nibble) (s : State) : Host.Outcome State Fault Refusal :=
  .next { s with dt := s.readV x }

/-- `Fx18` LD ST, Vx (R165). -/
def execLdSTVx (x : Nibble) (s : State) : Host.Outcome State Fault Refusal :=
  .next { s with st := s.readV x }

end Sys2Proof.Machine
end

