-- ==== Sys2Proof/Machine/Execute.lean ====
section
/-!
DEFINITION. The core's two operations (spec/10_state.md R15, R16): `Execute(op)` and `Step`.
-/

namespace Sys2Proof.Machine

/-- `Execute(op)` (R16): nothing on a halted core, the instruction's rule for a recognised word, nothing for any other
(R68). -/
def execute (op : Word) (s : State) : Host.Outcome State Fault Refusal :=
  if s.faultReg = .none then
    match decode op with
    | .ok i => exec i s
    | .error _ => .next s
  else .next s

/-- `Step` (R15): on a halted core nothing; else fetch, advance `PC`, execute. -/
def coreStep (s : State) : Host.Outcome State Fault Refusal :=
  if s.faultReg = .none then execute s.fetch s.advance else .next s

end Sys2Proof.Machine
end

