-- ==== Sys2Proof/Machine/Step.lean ====
section
/-!
DEFINITION. One step of the core (spec/10_state.md R15), and the state in which the next step runs a given word.
-/

namespace Sys2Proof.Machine

/-- One `Step` of the core (R15). The host's operations are no part of it (Machine/HostOps.lean, notes/assumptions/3.md). -/
def step (s : State) : Host.Outcome State Fault Refusal := coreStep s

/-- `s` with the instruction of bits `w` stored where the next `Step` fetches (notes/assumptions/9.md). -/
def State.withFetchWord (s : State) (nbits w : Nat) : State := s.placeWord (tableWord nbits w)

end Sys2Proof.Machine
end

