-- ==== Sys2Proof/Machine/Assembler.lean ====
section
/-!
DEFINITION. The assembler (spec/30_encoding.md R73 to R80, R83): toolchain, not hardware (00_scope.md R2); no instruction
rule depends on it. Text is a list of characters. What R73 to R78 leave open is refused: notes/assumptions/12.md to 14.md.
-/

namespace Sys2Proof.Machine

/-- A line of source, or a token of it. -/
abbrev Text := List Char

/-- The toolchain's error kinds (R83). The third kind of R83, for `Fx0A`, does not exist here. -/
inductive ToolError where
  /-- An empty or unparseable line: the assembler's caller sees it. -/
  | malformedInstruction
  /-- A word no instruction has: name lookup and disassembler (R72, R81). -/
  | unrecognizedOpcode
  deriving DecidableEq, Repr

/-- Label names with their recorded addresses (R74, R77). -/
abbrev LabelTable := List (Text × Nat)

/-! ## Tokenizer (R73) -/

/-- Only the space and the comma separate tokens (R73, C7). -/
def isSeparator (c : Char) : Bool := c == ' ' || c == ','

/-- The token being collected, put before the tokens after it unless it is empty. -/
def consToken (t : Text) (ts : List Text) : List Text := if t.isEmpty then ts else t :: ts

/-- Splitting with a token in progress. -/
def tokenizeFrom (cur : Text) : Text → List Text
  | [] => consToken cur []
  | c :: cs => if isSeparator c then consToken cur (tokenizeFrom [] cs) else tokenizeFrom (cur ++ [c]) cs

/-- The non-empty tokens of a line (R73). -/
def tokenize (line : Text) : List Text := tokenizeFrom [] line

/-! ## Operand extractor (R74) -/

/-- A decimal digit. -/
def isDigit (c : Char) : Bool := decide (48 ≤ c.toNat) && decide (c.toNat ≤ 57)

/-- A purely numeric token. -/
def isNumeric (t : Text) : Bool := !t.isEmpty && t.all isDigit

/-- The decimal value of digits. -/
def decimalValue (t : Text) : Nat := t.foldl (fun n c => 10 * n + (c.toNat - 48)) 0

/-- A numeral as an unsigned 16-bit operand (R74); anything else is outside the input language (U31). -/
def parseOperand (t : Text) : Except ToolError Nat :=
  if isNumeric t && decide (decimalValue t < 65536) then .ok (decimalValue t) else .error .malformedInstruction

/-- The recorded address of a label (R74). -/
def labelAddress (t : Text) : LabelTable → Option Nat
  | [] => none
  | l :: ls => if l.1 = t then some l.2 else labelAddress t ls

/-- What one token contributes (R74): a known label its address, a register token its number, a numeral its value, any
other token nothing. -/
def extractToken (labels : LabelTable) (t : Text) : Except ToolError (List Nat) :=
  match labelAddress t labels with
  | some a => .ok [a]
  | none =>
    match t with
    | 'V' :: digits =>
      match parseOperand digits with
      | .ok n => .ok [n]
      | .error e => .error e
    | _ =>
      if isNumeric t then
        match parseOperand t with
        | .ok n => .ok [n]
        | .error e => .error e
      else .ok []

/-- The operands of a token sequence, in order (R74). -/
def extractOperands (labels : LabelTable) : List Text → Except ToolError (List Nat)
  | [] => .ok []
  | t :: ts =>
    match extractToken labels t, extractOperands labels ts with
    | .ok a, .ok b => .ok (a ++ b)
    | .error e, _ => .error e
    | _, .error e => .error e

/-! ## Mnemonic normalizer (R75) -/

/-- What a row of the decision table asks of an operand token (R75). -/
inductive Marker where
  /-- The token begins with the given text. -/
  | starts (m : String)
  /-- The token is purely numeric. -/
  | numeric
  /-- Some token is there. -/
  | other
  /-- No token is there. -/
  | absent
  /-- Nothing is asked. -/
  | any
  deriving DecidableEq, Repr

/-- The test of a marker on an operand token. -/
def markerFits (m : Marker) (t : Option Text) : Bool :=
  match m, t with
  | .starts p, some t => p.toList.isPrefixOf t
  | .numeric, some t => isNumeric t
  | .other, some _ => true
  | .absent, none => true
  | .any, _ => true
  | _, _ => false

/-- A row of the decision table. -/
structure NormRow where
  mnemonic : String
  first : Marker
  second : Marker
  name : Name
  deriving DecidableEq, Repr

/-- The mnemonics with a single encoding (R75, C2): direct lookup. -/
def directRows : List NormRow :=
  [⟨"CLS", .any, .any, .cls⟩, ⟨"RET", .any, .any, .ret⟩, ⟨"CALL", .any, .any, .call⟩, ⟨"OR", .any, .any, .orReg⟩,
   ⟨"AND", .any, .any, .andReg⟩, ⟨"XOR", .any, .any, .xorReg⟩, ⟨"SUB", .any, .any, .subReg⟩,
   ⟨"SHR", .any, .any, .shr⟩, ⟨"SUBN", .any, .any, .subn⟩, ⟨"SHL", .any, .any, .shl⟩, ⟨"RND", .any, .any, .rnd⟩,
   ⟨"DRW", .any, .any, .drw⟩, ⟨"SKP", .any, .any, .skp⟩, ⟨"SKNP", .any, .any, .sknp⟩]

/-- The rows of `ADD`, `JP`, `SE` and `SNE` (R75). -/
def skipRows : List NormRow :=
  [⟨"ADD", .starts "I", .starts "V", .addIVx⟩, ⟨"ADD", .starts "V", .starts "V", .addReg⟩,
   ⟨"ADD", .starts "V", .numeric, .addByte⟩,
   ⟨"JP", .starts "V", .any, .jpV0⟩, ⟨"JP", .other, .absent, .jp⟩,
   ⟨"SE", .starts "V", .starts "V", .seReg⟩, ⟨"SE", .starts "V", .other, .seByte⟩,
   ⟨"SNE", .starts "V", .starts "V", .sneReg⟩, ⟨"SNE", .starts "V", .other, .sneByte⟩]

/-- The rows of `LD` (R75). -/
def ldRows : List NormRow :=
  [⟨"LD", .starts "V", .starts "V", .ldReg⟩, ⟨"LD", .starts "V", .starts "DT", .ldVxDT⟩,
   ⟨"LD", .starts "V", .starts "K", .ldVxK⟩, ⟨"LD", .starts "V", .starts "[I]", .ldVxMem⟩,
   ⟨"LD", .starts "DT", .starts "V", .ldDTVx⟩, ⟨"LD", .starts "ST", .starts "V", .ldSTVx⟩,
   ⟨"LD", .starts "F", .starts "V", .ldF⟩, ⟨"LD", .starts "B", .starts "V", .ldB⟩,
   ⟨"LD", .starts "[I]", .starts "V", .ldMemVx⟩, ⟨"LD", .starts "I", .other, .ldI⟩,
   ⟨"LD", .starts "V", .other, .ldByte⟩]

/-- The decision table, rows tried top to bottom (R75). -/
def normRows : List NormRow := directRows ++ skipRows ++ ldRows

/-- A row fits a mnemonic and its first two operand tokens. -/
def rowFits (mnemonic : Text) (t1 t2 : Option Text) (r : NormRow) : Bool :=
  decide (r.mnemonic.toList = mnemonic) && markerFits r.first t1 && markerFits r.second t2

/-- The canonical name of a token sequence (R75); none where R75 fails. -/
def normalize : List Text → Option Name
  | [] => none
  | m :: ts => (normRows.find? (rowFits m ts[0]? ts[1]?)).map NormRow.name

/-! ## Assembly of a line and of a source (R76, R77, R80) -/

/-- `assemble(mnemonic_line, label_table)` (R76): one operand per field, or the line fails. -/
def assembleLine (labels : LabelTable) (line : Text) : Except ToolError Word :=
  match extractOperands labels (tokenize line), normalize (tokenize line) with
  | .ok ops, some n =>
    if ops.length = n.fields.length then .ok (AsmInstr.encode { name := n, operands := ops })
    else .error .malformedInstruction
  | _, _ => .error .malformedInstruction

/-- The classes of source lines (R77). -/
inductive LineClass where
  | comment
  | blank
  | label (name : Text)
  | instruction
  deriving DecidableEq, Repr

/-- Classifying a line by its leading characters (R77). -/
def classify (line : Text) : LineClass :=
  if "#".toList.isPrefixOf line || "//".toList.isPrefixOf line then .comment
  else
    match line with
    | ':' :: name => .label name
    | _ => if line.all (fun c => c == ' ') then .blank else .instruction

/-- The label table and the queued lines of a source, with the address counter at `addr` (R77). A label defined twice is
refused (notes/assumptions/14.md). -/
def preprocess (addr : Nat) (labels : LabelTable) : List Text → Except ToolError (LabelTable × List Text)
  | [] => .ok (labels, [])
  | l :: ls =>
    match classify l with
    | .comment => preprocess addr labels ls
    | .blank => preprocess addr labels ls
    | .label n =>
      if (labelAddress n labels).isSome then .error .malformedInstruction
      else preprocess addr (labels ++ [(n, addr)]) ls
    | .instruction =>
      match preprocess (addr + 2) labels ls with
      | .ok (t, q) => .ok (t, l :: q)
      | .error e => .error e

/-- The words of the queued lines, in order. -/
def assembleLines (labels : LabelTable) : List Text → Except ToolError (List Word)
  | [] => .ok []
  | l :: ls =>
    match assembleLine labels l, assembleLines labels ls with
    | .ok w, .ok ws => .ok (w :: ws)
    | .error e, _ => .error e
    | _, .error e => .error e

/-- A whole source as words (R77): all lines are classified before any is assembled. -/
def assembleSource (source : List Text) : Except ToolError (List Word) :=
  match preprocess Config.romBase [] source with
  | .ok (labels, queue) => assembleLines labels queue
  | .error e => .error e

/-- ROM serialisation: two bytes per word, high byte first, nothing between (R80). -/
def serialize : List Word → List Byte
  | [] => []
  | w :: ws => bytesOfWord w ++ serialize ws

end Sys2Proof.Machine
end

