-- ==== Sys2Proof/Machine/Disassembler.lean ====
section
/-!
DEFINITION. The name lookup and the disassembler (spec/30_encoding.md R72, R81): toolchain, not hardware.
-/

namespace Sys2Proof.Machine

/-- `get_name_from_hex` (R72): the classification of R64, failing loudly where it yields `UNRECOGNISED`. -/
def nameFromHex (op : Word) : Except ToolError Name :=
  match nameOf op with
  | .ok n => .ok n
  | .error _ => .error .unrecognizedOpcode

/-- The character of a decimal digit. -/
def digitChar (n : Nat) : Char := Char.ofNat (48 + n)

/-- The decimal digits of a number, with fuel for its length. -/
def decimalFuel : Nat → Nat → Text
  | 0, _ => []
  | f + 1, n => if n < 10 then [digitChar n] else decimalFuel f (n / 10) ++ [digitChar (n % 10)]

/-- A number below 100000 in decimal; operands are at most 4095 (R81). -/
def decimalText (n : Nat) : Text := decimalFuel 5 n

/-- A register in text: `V` and its decimal number (R78, R81). -/
def regText (x : Nibble) : Text := 'V' :: decimalText x.toNat

/-- Mnemonic alone. -/
def form0 (m : String) : Text := m.toList

/-- Mnemonic, a space, one operand. -/
def form1 (m : String) (a : Text) : Text := m.toList ++ ' ' :: a

/-- Mnemonic, a space, two operands joined by a comma and a space. -/
def form2 (m : String) (a b : Text) : Text := m.toList ++ ' ' :: a ++ ',' :: ' ' :: b

/-- Mnemonic, a space, three operands. -/
def form3 (m : String) (a b c : Text) : Text := form2 m a b ++ ',' :: ' ' :: c

/-- The text of an instruction (R79, R81). -/
def instrText : Instr → Text
  | .cls => form0 "CLS"
  | .ret => form0 "RET"
  | .jp addr => form1 "JP" (decimalText addr.toNat)
  | .call addr => form1 "CALL" (decimalText addr.toNat)
  | .seByte x kk => form2 "SE" (regText x) (decimalText kk.toNat)
  | .sneByte x kk => form2 "SNE" (regText x) (decimalText kk.toNat)
  | .seReg x y => form2 "SE" (regText x) (regText y)
  | .ldByte x kk => form2 "LD" (regText x) (decimalText kk.toNat)
  | .addByte x kk => form2 "ADD" (regText x) (decimalText kk.toNat)
  | .ldReg x y => form2 "LD" (regText x) (regText y)
  | .orReg x y => form2 "OR" (regText x) (regText y)
  | .andReg x y => form2 "AND" (regText x) (regText y)
  | .xorReg x y => form2 "XOR" (regText x) (regText y)
  | .addReg x y => form2 "ADD" (regText x) (regText y)
  | .subReg x y => form2 "SUB" (regText x) (regText y)
  | .shr x y => form2 "SHR" (regText x) (regText y)
  | .subn x y => form2 "SUBN" (regText x) (regText y)
  | .shl x y => form2 "SHL" (regText x) (regText y)
  | .sneReg x y => form2 "SNE" (regText x) (regText y)
  | .ldI addr => form2 "LD" "I".toList (decimalText addr.toNat)
  | .jpV0 addr => form2 "JP" "V0".toList (decimalText addr.toNat)
  | .rnd x kk => form2 "RND" (regText x) (decimalText kk.toNat)
  | .drw x y n => form3 "DRW" (regText x) (regText y) (decimalText n.toNat)
  | .skp x => form1 "SKP" (regText x)
  | .sknp x => form1 "SKNP" (regText x)
  | .ldVxDT x => form2 "LD" (regText x) "DT".toList
  | .ldVxK x => form2 "LD" (regText x) "K".toList
  | .ldDTVx x => form2 "LD" "DT".toList (regText x)
  | .ldSTVx x => form2 "LD" "ST".toList (regText x)
  | .addIVx x => form2 "ADD" "I".toList (regText x)
  | .ldF x => form2 "LD" "F".toList (regText x)
  | .ldB x => form2 "LD" "B".toList (regText x)
  | .ldMemVx x => form2 "LD" "[I]".toList (regText x)
  | .ldVxMem x => form2 "LD" (regText x) "[I]".toList

/-- `disassemble(Instruction)` (R81). -/
def disassemble (op : Word) : Except ToolError Text :=
  match decode op with
  | .ok i => .ok (instrText i)
  | .error _ => .error .unrecognizedOpcode

end Sys2Proof.Machine
end

