-- ==== Sys2Proof/Machine/HostOps.lean ====
section
/-!
DEFINITION. The host's operations (spec/00_scope.md R8, spec/60_exceptions.md R178 to R182, spec/70_reset_and_hazards.md
R190, R191) and runs in which the host and the core act in any order (R9, D31; notes/assumptions/3.md). Each operation
is atomic and acts between two core operations.
-/

namespace Sys2Proof.Machine

/-- The state after reset of the machine with the given `FONT` (R4, R28, R42, D22): the font at 0x000 to 0x04F, everything
else as in `State.reset`. -/
def resetWithFont (font : Font) : State :=
  { State.reset with mem := State.reset.mem.writeList 0 font.toList }

/-- `Reset` (R190) on the machine with the given `FONT`: every piece of state at its reset value, the font included. The
random generator is left unspecified: the count of draws goes on, so that later draws are fresh
(notes/assumptions/7.md). -/
def hostReset (font : Font) (s : State) : State := { resetWithFont font with draws := s.draws }

/-- The machine with the given `FONT` behind the host's interface (R4). The host's own `Sys2Proof.core` takes no argument
and is the one with the default `FONT` (notes/assumptions/2.md). -/
def coreWithFont (font : Font) : Host.Core :=
  { State := State, Fault := Fault, Refusal := Refusal, step := step, reset := resetWithFont font }

/-- `LoadROM(bytes)` (R191): the image is copied to memory from 0x200; one that does not fit is refused. -/
def loadROM (bytes : List Byte) (s : State) : Host.Outcome State Fault Refusal :=
  if bytes.length ≤ Config.romMax then .next { s with mem := s.mem.writeList Config.romBase bytes }
  else .refused .romTooLong

/-- A timer counted down by one, a timer at 0 left there (R178). -/
def countDown (t : Byte) : Byte := if t = 0#8 then 0#8 else t - 1#8

/-- `TimerTick` (R178). -/
def timerTick (s : State) : State := { s with dt := countDown s.dt, st := countDown s.st }

/-- `SetKey(k, b)` (R179). -/
def setKey (k : Nibble) (b : Bool) (s : State) : State := { s with key := s.key.set k.toNat b }

/-- `Seed(n)` (R181): no effect a model can rely on; every draw stays a free value (notes/assumptions/7.md). -/
def seedRandom (_n : Nat) (s : State) : State := s

/-- The state elements the host can name (R182). FAULT can be read and not written; the random generator's state can be
neither. -/
inductive Element where
  | v (x : Nibble)
  | i
  | pc
  | sp
  | stack (k : Nibble)
  | dt
  | st
  | mem (a : Addr)
  | disp (r : BitVec 5)
  | key (k : Nibble)
  | fault
  deriving DecidableEq, Repr

/-- `Peek(e)` (R180, R182): the current value as a number; a key is 1 when pressed; FAULT is its code. -/
def peek (e : Element) (s : State) : Nat :=
  match e with
  | .v x => (s.readV x).toNat
  | .i => s.i.toNat
  | .pc => s.pc.toNat
  | .sp => s.sp.toNat
  | .stack k => s.stack[k.toNat].toNat
  | .dt => s.dt.toNat
  | .st => s.st.toNat
  | .mem a => (s.readMem a.toNat).toNat
  | .disp r => (readRow s.disp r.toNat).toNat
  | .key k => (s.readKey k).toNat
  | .fault => s.faultReg.code.toNat

/-- The values `Poke` may store in an element (R182). FAULT has no mutator. -/
def pokeLegal (e : Element) (n : Nat) : Bool :=
  match e with
  | .v _ => decide (n < 256)
  | .i => decide (n < 4096)
  | .pc => decide (n < 4096)
  | .sp => decide (n < 16)
  | .stack _ => decide (n < 65536)
  | .dt => decide (n < 256)
  | .st => decide (n < 256)
  | .mem _ => decide (n < 256)
  | .disp _ => decide (n < 2 ^ 64)
  | .key _ => decide (n < 2)
  | .fault => false

/-- The state with an element set to a legal value (R182). -/
def pokeState (e : Element) (n : Nat) (s : State) : State :=
  match e with
  | .v x => s.writeV x (BitVec.ofNat 8 n)
  | .i => { s with i := BitVec.ofNat 16 n }
  | .pc => { s with pc := BitVec.ofNat 16 n }
  | .sp => { s with sp := BitVec.ofNat 8 n }
  | .stack k => { s with stack := s.stack.set k.toNat (BitVec.ofNat 16 n) }
  | .dt => { s with dt := BitVec.ofNat 8 n }
  | .st => { s with st := BitVec.ofNat 8 n }
  | .mem a => s.writeMem a.toNat (BitVec.ofNat 8 n)
  | .disp r => { s with disp := writeRow s.disp r.toNat (BitVec.ofNat 64 n) }
  | .key k => setKey k (decide (n = 1)) s
  | .fault => s

/-- `Poke(e, n)` (R182): a value outside the legal range is refused and changes nothing. -/
def poke (e : Element) (n : Nat) (s : State) : Host.Outcome State Fault Refusal :=
  if pokeLegal e n then .next (pokeState e n s) else .refused .pokeRefused

/-- What can happen to the machine: the operations of R8. -/
inductive Event where
  | step
  | execute (op : Word)
  | reset
  | loadROM (bytes : List Byte)
  | timerTick
  | setKey (k : Nibble) (b : Bool)
  | seed (n : Nat)
  | peek (e : Element)
  | poke (e : Element) (n : Nat)
  deriving DecidableEq, Repr

/-- The effect of one operation on the machine with the given `FONT` (R4, R8, R9). Only `Reset` depends on it. -/
def applyEvent (font : Font) (e : Event) (s : State) : Host.Outcome State Fault Refusal :=
  match e with
  | .step => step s
  | .execute op => execute op s
  | .reset => .next (hostReset font s)
  | .loadROM bytes => loadROM bytes s
  | .timerTick => .next (timerTick s)
  | .setKey k b => .next (setKey k b s)
  | .seed n => .next (seedRandom n s)
  | .peek _ => .next s
  | .poke e n => poke e n s

/-- A schedule on the machine with the given `FONT`: operations one after another, ending at the first that is refused
(R9, R48). -/
def runEvents (font : Font) : List Event → State → Host.Outcome State Fault Refusal
  | [], s => .next s
  | e :: es, s =>
    match applyEvent font e s with
    | .next t => runEvents font es t
    | .fault f => .fault f
    | .refused r => .refused r

end Sys2Proof.Machine
end

