-- ==== Sys2Proof/WellFormed.lean ====
section
/-!
DEFINITION. When an operand list fits its instruction (spec/30_encoding.md R71, R76, R84: the count equals the field
count, and every operand fits its field). The operands of `Instr` are typed by their field widths, so every `Instr` is
well formed; the check refuses operand forms (`AsmInstr`) that the field masks of R76 would truncate or that R76 fails.
-/

namespace Sys2Proof

/-- How many values a field can hold (R61). The `ignore` operand is the register number of the fixed text `V0` (R107). -/
def Field.size : Field → Nat
  | .addr => 4096
  | .x => 16
  | .y => 16
  | .byte => 256
  | .nibble => 16
  | .ignore => 1

/-- One operand per field, each within its field. -/
def operandsFit : List Field → List Nat → Bool
  | [], [] => true
  | f :: fs, v :: vs => decide (v < f.size) && operandsFit fs vs
  | _, _ => false

/-- The operand form encodes without loss: right operand count, every operand fits (R76, R84). -/
def AsmInstr.wellFormed (a : AsmInstr) : Bool := operandsFit a.name.fields a.operands

/-- An instruction is well formed when its operand form is. -/
def Instr.wellFormed (i : Instr) : Bool := i.asm.wellFormed

end Sys2Proof
end

