-- ==== Sys2Proof/Safety.lean ====
section
/-!
DEFINITION. The terms claims use: legal states, failed runs, frames, pixels, the registers an instruction may write, and
the table of `PC` effects.
-/

namespace Sys2Proof.Machine

/-! ## Legal states -/

/-- The legal values of the summary table of spec/10_state.md: `I` and `PC` below 4096 (R13, R14), `SP` at most 15 (R18),
memory in its canonical form. -/
abbrev State.Legal (s : State) : Prop :=
  s.i.toNat < 4096 ∧ s.pc.toNat < 4096 ∧ s.sp.toNat ≤ 15 ∧ s.mem.wf = true

/-- Every stack slot holds a value below 4096: what `CALL` alone leaves there (R19); a `Poke` may break it. -/
abbrev State.StackLegal (s : State) : Prop := ∀ k : Fin 16, s.stack[k].toNat < 4096

/-- A failed run: FAULT is set and the core is halted (R173). -/
abbrev State.Failed (s : State) : Prop := s.faultReg ≠ .none

/-- A safe run: the schedule is carried out without a refusal and ends in a state that has not failed (R173). -/
def SafeRun (font : Font) (es : List Event) (s : State) : Prop := ∃ t, runEvents font es s = .next t ∧ ¬ t.Failed

/-- Glyph 0 is the one the source fixes (R42): true of every `FONT` the spec allows. -/
def GlyphZero (font : Font) : Prop := font.toList.take 5 = [0xF0#8, 0x90#8, 0x90#8, 0x90#8, 0xF0#8]

/-! ## Frames -/

/-- The pieces of state beside the general registers. -/
inductive Part where
  | i
  | pc
  | sp
  | stack
  | dt
  | st
  | mem
  | disp
  | key
  | fault
  | draws
  deriving DecidableEq, Repr

/-- A piece of state is the same in two states; memory is compared byte by byte through its reads. -/
def Part.Same (p : Part) (s t : State) : Prop :=
  match p with
  | .i => t.i = s.i
  | .pc => t.pc = s.pc
  | .sp => t.sp = s.sp
  | .stack => t.stack = s.stack
  | .dt => t.dt = s.dt
  | .st => t.st = s.st
  | .mem => ∀ a, t.readMem a = s.readMem a
  | .disp => t.disp = s.disp
  | .key => t.key = s.key
  | .fault => t.faultReg = s.faultReg
  | .draws => t.draws = s.draws

/-- Every piece of state beside the general registers is the same, but for those listed. -/
def SameBut (ps : List Part) (s t : State) : Prop := ∀ p, p ∉ ps → p.Same s t

/-- Every general register is the same, but for those listed. -/
def SameRegsBut (xs : List Nibble) (s t : State) : Prop := ∀ r, r ∉ xs → t.readV r = s.readV r

/-! ## Shapes of claims about one instruction -/

/-- The words the decoder reads as a given instruction are exactly those with `op & mask = base` (R65). -/
def EncodedAs (mask base : Word) (mk : Word → Instr) : Prop :=
  ∀ op, decode op = .ok (mk op) ↔ op &&& mask = base

/-- The instruction completes, changes nothing but `PC`, and skips the next instruction exactly when the condition
holds (R108). -/
def SkipsWhen (i : Instr) (c : State → Prop) : Prop :=
  ∀ s, ∃ t, exec i s = .next t ∧ (c s → t.pc.toNat = (s.pc.toNat + 2) % 4096) ∧ (¬ c s → t.pc = s.pc) ∧
    SameRegsBut [] s t ∧ SameBut [.pc] s t

/-- The instruction completes and changes nothing but one register, which takes a value of the state before. -/
def WritesReg (i : Instr) (x : Nibble) (f : State → Nat) : Prop :=
  ∀ s, ∃ t, exec i s = .next t ∧ (t.readV x).toNat = f s ∧ SameRegsBut [x] s t ∧ SameBut [] s t

/-- The instruction completes and changes nothing but one register and `VF`; `VF` ends as the flag, also when it is the
destination (R12). -/
def WritesRegAndFlag (i : Instr) (x : Nibble) (f : State → Nat) (c : State → Prop) : Prop :=
  ∀ s, ∃ t, exec i s = .next t ∧ (x ≠ 15#4 → (t.readV x).toNat = f s) ∧ (c s → t.readV 15#4 = 1#8) ∧
    (¬ c s → t.readV 15#4 = 0#8) ∧ SameRegsBut [x, 15#4] s t ∧ SameBut [] s t

/-- The instruction completes and changes nothing but `I`, which takes a value of the state before. -/
def WritesIndex (i : Instr) (f : State → Nat) : Prop :=
  ∀ s, ∃ t, exec i s = .next t ∧ t.i.toNat = f s ∧ SameRegsBut [] s t ∧ SameBut [.i] s t

/-- Raising a fault: the outcome records the code, sets `PC` back by 2, and changes nothing else (R172). -/
def Raises (i : Instr) (s : State) (f : FaultCode) : Prop :=
  ∃ t, exec i s = .next t ∧ t.faultReg = f ∧ t.pc.toNat = (s.pc.toNat + 4094) % 4096 ∧
    SameRegsBut [] s t ∧ SameBut [.pc, .fault] s t

/-- `Poke` of an element stores every value below a bound, which `Peek` then shows of that element and of no other, and
refuses every other value (R182). -/
def PokesBelow (e : Element) (bound : Nat) : Prop :=
  ∀ (font : Font) (s : State) (n : Nat), s.Legal →
    (n < bound → ∃ t, applyEvent font (.poke e n) s = .next t ∧ peek e t = n ∧
      (∀ e', e' ≠ e → peek e' t = peek e' s) ∧ t.draws = s.draws) ∧
    (bound ≤ n → applyEvent font (.poke e n) s = .refused .pokeRefused)

/-- The high and the low byte of the next fetch are bytes stored by a transfer of `n` bytes from `I` upwards where it
reaches them, and the bytes of memory before it elsewhere (R50, R146). -/
def FetchSees (s t : State) (n : Nat) (stored : Nat → Nat) : Prop :=
  (∀ k, k < n → s.effAddr k = s.pc.toNat % 4096 → t.fetch.toNat / 256 = stored k) ∧
  (∀ k, k < n → s.effAddr k = (s.pc.toNat + 1) % 4096 → t.fetch.toNat % 256 = stored k) ∧
  ((∀ k, k < n → s.effAddr k ≠ s.pc.toNat % 4096) → t.fetch.toNat / 256 = (s.readMem s.pc.toNat).toNat) ∧
  ((∀ k, k < n → s.effAddr k ≠ (s.pc.toNat + 1) % 4096) →
    t.fetch.toNat % 256 = (s.readMem (s.pc.toNat + 1)).toNat)

/-! ## Pixels (R23, R151) -/

/-- The pixel at row `r` and column `c`: bit `63 - c` of the row (R23). -/
def pixel (d : Vector Row 32) (r c : Nat) : Bool := (readRow d r).getLsbD (63 - c)

/-- Whether an `n`-row sprite at `I`, started at column `x0` and row `y0`, has a 1 bit at row `r` and column `c`
(R151, clauses (a) to (c)). -/
def spritePixel (s : State) (x0 y0 n r c : Nat) : Bool :=
  decide (y0 ≤ r) && decide (r - y0 < n) && decide (x0 ≤ c) && decide (c - x0 < 8) &&
    (s.readMem (s.effAddr (r - y0))).getLsbD (7 - (c - x0))

/-! ## What an instruction may write -/

/-- The general registers an instruction names as a plain destination. -/
def plainDest (i : Instr) (r : Nibble) : Bool :=
  match i with
  | .cls => false
  | .ret => false
  | .jp _ => false
  | .call _ => false
  | .seByte _ _ => false
  | .sneByte _ _ => false
  | .seReg _ _ => false
  | .ldByte x _ => r == x
  | .addByte x _ => r == x
  | .ldReg x _ => r == x
  | .orReg x _ => r == x
  | .andReg x _ => r == x
  | .xorReg x _ => r == x
  | .addReg x _ => r == x
  | .subReg x _ => r == x
  | .shr x _ => r == x
  | .subn x _ => r == x
  | .shl x _ => r == x
  | .sneReg _ _ => false
  | .ldI _ => false
  | .jpV0 _ => false
  | .rnd x _ => r == x
  | .drw _ _ _ => false
  | .skp _ => false
  | .sknp _ => false
  | .ldVxDT x => r == x
  | .ldVxK x => r == x
  | .ldDTVx _ => false
  | .ldSTVx _ => false
  | .addIVx _ => false
  | .ldF _ => false
  | .ldB _ => false
  | .ldMemVx _ => false
  | .ldVxMem x => decide (r ≤ x)

/-- The six instructions that write `VF` as a flag (R11). -/
def flagWriters : List Name := [.addReg, .subReg, .shr, .subn, .shl, .drw]

/-! ## `PC` after a step (R17) -/

/-- `PC` after the step that runs an instruction fetched from `A = PC` in the given state, which is not halted (R17). -/
def pcAfter (i : Instr) (s : State) : Nat :=
  match i with
  | .ret => if s.sp = 0#8 then s.pc.toNat else (s.readStack s.sp).toNat % 4096
  | .jp addr => addr.toNat
  | .call addr => if s.sp = 15#8 then s.pc.toNat else addr.toNat
  | .seByte x kk => (s.pc.toNat + if s.readV x = kk then 4 else 2) % 4096
  | .sneByte x kk => (s.pc.toNat + if s.readV x ≠ kk then 4 else 2) % 4096
  | .seReg x y => (s.pc.toNat + if s.readV x = s.readV y then 4 else 2) % 4096
  | .sneReg x y => (s.pc.toNat + if s.readV x ≠ s.readV y then 4 else 2) % 4096
  | .jpV0 addr => (addr.toNat + (s.readV 0#4).toNat) % 4096
  | .skp x => (s.pc.toNat + if s.readKey (s.keyIndex x) = true then 4 else 2) % 4096
  | .sknp x => (s.pc.toNat + if s.readKey (s.keyIndex x) = false then 4 else 2) % 4096
  | .ldVxK _ => if s.key.toList.any id then (s.pc.toNat + 2) % 4096 else s.pc.toNat
  | .cls => (s.pc.toNat + 2) % 4096
  | .ldByte _ _ => (s.pc.toNat + 2) % 4096
  | .addByte _ _ => (s.pc.toNat + 2) % 4096
  | .ldReg _ _ => (s.pc.toNat + 2) % 4096
  | .orReg _ _ => (s.pc.toNat + 2) % 4096
  | .andReg _ _ => (s.pc.toNat + 2) % 4096
  | .xorReg _ _ => (s.pc.toNat + 2) % 4096
  | .addReg _ _ => (s.pc.toNat + 2) % 4096
  | .subReg _ _ => (s.pc.toNat + 2) % 4096
  | .shr _ _ => (s.pc.toNat + 2) % 4096
  | .subn _ _ => (s.pc.toNat + 2) % 4096
  | .shl _ _ => (s.pc.toNat + 2) % 4096
  | .ldI _ => (s.pc.toNat + 2) % 4096
  | .rnd _ _ => (s.pc.toNat + 2) % 4096
  | .drw _ _ _ => (s.pc.toNat + 2) % 4096
  | .ldVxDT _ => (s.pc.toNat + 2) % 4096
  | .ldDTVx _ => (s.pc.toNat + 2) % 4096
  | .ldSTVx _ => (s.pc.toNat + 2) % 4096
  | .addIVx _ => (s.pc.toNat + 2) % 4096
  | .ldF _ => (s.pc.toNat + 2) % 4096
  | .ldB _ => (s.pc.toNat + 2) % 4096
  | .ldMemVx _ => (s.pc.toNat + 2) % 4096
  | .ldVxMem _ => (s.pc.toNat + 2) % 4096

end Sys2Proof.Machine
end

