-- ==== Sys2Proof/Certificates/Slice0/Obligations.lean ====
section
/-!
DEFINITION. The statements for the provers: claims about the machine, from the numbered rules of spec/. The shapes and
frames they are written in stand in Sys2Proof/Safety.lean.
-/

open Sys2Proof Sys2Proof.Machine

/-! ## Control transfer (40_control.md) -/

/-- R100. `RET` takes `PC` from the slot `SP` names and lowers `SP`; with `SP = 0` it raises
`StackUnderflow`, which is the spec's decision D6. -/
def Obligations.RetReturnsOrUnderflows : Prop :=
  EncodedAs 0xFFFF#16 0x00EE#16 (fun _ => .ret) ∧
  (∀ (s : State) (h : s.sp.toNat < 16), s.sp ≠ 0#8 → ∃ t, exec .ret s = .next t ∧
    t.pc.toNat = s.stack[s.sp.toNat].toNat % 4096 ∧ t.sp.toNat = s.sp.toNat - 1 ∧
    SameRegsBut [] s t ∧ SameBut [.pc, .sp] s t) ∧
  (∀ s : State, s.sp = 0#8 → Raises .ret s .stackUnderflow)

/-- R101. `JP addr` sets `PC` to `addr`. -/
def Obligations.JpSetsPc : Prop :=
  EncodedAs 0xF000#16 0x1000#16 (fun op => .jp (fieldAddr op)) ∧
  (∀ (s : State) (addr : Addr), ∃ t, exec (.jp addr) s = .next t ∧ t.pc.toNat = addr.toNat ∧
    SameRegsBut [] s t ∧ SameBut [.pc] s t)

/-- R102. `CALL addr` raises `SP`, stores the current `PC` in the slot the new `SP` names, and jumps; with `SP = 15` it
raises `StackOverflow`, which is the spec's decision D5. -/
def Obligations.CallPushesOrOverflows : Prop :=
  EncodedAs 0xF000#16 0x2000#16 (fun op => .call (fieldAddr op)) ∧
  (∀ (s : State) (addr : Addr), s.sp.toNat < 15 → ∃ t, exec (.call addr) s = .next t ∧
    t.sp.toNat = s.sp.toNat + 1 ∧
    (∀ (k : Nat) (h : k < 16), t.stack[k] = if k = s.sp.toNat + 1 then s.pc else s.stack[k]) ∧
    t.pc.toNat = addr.toNat ∧ SameRegsBut [] s t ∧ SameBut [.pc, .sp, .stack] s t) ∧
  (∀ (s : State) (addr : Addr), s.sp = 15#8 → Raises (.call addr) s .stackOverflow)

/-- R103, R104. `SE Vx, byte` and `SNE Vx, byte` skip on equality and on inequality. That the advance of a taken skip
wraps modulo 4096 is the spec's decision D2. -/
def Obligations.SkipsComparingImmediate : Prop :=
  EncodedAs 0xF000#16 0x3000#16 (fun op => .seByte (fieldX op) (fieldByte op)) ∧
  EncodedAs 0xF000#16 0x4000#16 (fun op => .sneByte (fieldX op) (fieldByte op)) ∧
  (∀ x kk, SkipsWhen (.seByte x kk) (fun s => (s.readV x).toNat = kk.toNat)) ∧
  (∀ x kk, SkipsWhen (.sneByte x kk) (fun s => (s.readV x).toNat ≠ kk.toNat))

/-- R105, R106. `SE Vx, Vy` and `SNE Vx, Vy` skip on equality and on inequality; the bottom nibble of the word is not
examined (the spec's decision D10). That the advance of a taken skip wraps modulo 4096 is its decision D2. -/
def Obligations.SkipsComparingRegisters : Prop :=
  EncodedAs 0xF000#16 0x5000#16 (fun op => .seReg (fieldX op) (fieldY op)) ∧
  EncodedAs 0xF000#16 0x9000#16 (fun op => .sneReg (fieldX op) (fieldY op)) ∧
  (∀ x y, SkipsWhen (.seReg x y) (fun s => (s.readV x).toNat = (s.readV y).toNat)) ∧
  (∀ x y, SkipsWhen (.sneReg x y) (fun s => (s.readV x).toNat ≠ (s.readV y).toNat))

/-- R107. `JP V0, addr` sets `PC` to `addr + V[0]` modulo 4096; the reduction is the spec's decision D2. -/
def Obligations.JpV0AddsOffset : Prop :=
  EncodedAs 0xF000#16 0xB000#16 (fun op => .jpV0 (fieldAddr op)) ∧
  (∀ (s : State) (addr : Addr), ∃ t, exec (.jpV0 addr) s = .next t ∧
    t.pc.toNat = (addr.toNat + (s.readV 0#4).toNat) % 4096 ∧ SameRegsBut [] s t ∧ SameBut [.pc] s t)

/-! ## Arithmetic and logic (41_alu.md) -/

/-- R120, R121. `LD Vx, byte` and `ADD Vx, byte`; the addition wraps and sets no flag. -/
def Obligations.ImmediateLoadAndAdd : Prop :=
  EncodedAs 0xF000#16 0x6000#16 (fun op => .ldByte (fieldX op) (fieldByte op)) ∧
  EncodedAs 0xF000#16 0x7000#16 (fun op => .addByte (fieldX op) (fieldByte op)) ∧
  (∀ x kk, WritesReg (.ldByte x kk) x (fun _ => kk.toNat)) ∧
  (∀ x kk, WritesReg (.addByte x kk) x (fun s => ((s.readV x).toNat + kk.toNat) % 256))

/-- R122 to R125. Copy, OR, AND, XOR of registers; no flag is written. -/
def Obligations.RegisterCopyAndLogic : Prop :=
  EncodedAs 0xF00F#16 0x8000#16 (fun op => .ldReg (fieldX op) (fieldY op)) ∧
  EncodedAs 0xF00F#16 0x8001#16 (fun op => .orReg (fieldX op) (fieldY op)) ∧
  EncodedAs 0xF00F#16 0x8002#16 (fun op => .andReg (fieldX op) (fieldY op)) ∧
  EncodedAs 0xF00F#16 0x8003#16 (fun op => .xorReg (fieldX op) (fieldY op)) ∧
  (∀ x y, WritesReg (.ldReg x y) x (fun s => (s.readV y).toNat)) ∧
  (∀ x y, WritesReg (.orReg x y) x (fun s => (s.readV x).toNat ||| (s.readV y).toNat)) ∧
  (∀ x y, WritesReg (.andReg x y) x (fun s => (s.readV x).toNat &&& (s.readV y).toNat)) ∧
  (∀ x y, WritesReg (.xorReg x y) x (fun s => (s.readV x).toNat ^^^ (s.readV y).toNat))

/-- R126. `ADD Vx, Vy`: the sum modulo 256, `VF` = 1 exactly when the sum exceeds 255. That the flag wins
when `x = 15` is the spec's decision D8. -/
def Obligations.AddSetsCarry : Prop :=
  EncodedAs 0xF00F#16 0x8004#16 (fun op => .addReg (fieldX op) (fieldY op)) ∧
  (∀ x y, WritesRegAndFlag (.addReg x y) x
    (fun s => ((s.readV x).toNat + (s.readV y).toNat) % 256)
    (fun s => (s.readV x).toNat + (s.readV y).toNat > 255))

/-- R127, R129. `SUB Vx, Vy` and `SUBN Vx, Vy`: the difference modulo 256, `VF` = 1 exactly when the subtraction performed
needs no borrow. The direction of the `SUBN` flag is the spec's decision D9; that the flag wins when `x = 15` is its
decision D8. -/
def Obligations.SubtractSetsNotBorrow : Prop :=
  EncodedAs 0xF00F#16 0x8005#16 (fun op => .subReg (fieldX op) (fieldY op)) ∧
  EncodedAs 0xF00F#16 0x8007#16 (fun op => .subn (fieldX op) (fieldY op)) ∧
  (∀ x y, WritesRegAndFlag (.subReg x y) x
    (fun s => ((s.readV x).toNat + 256 - (s.readV y).toNat) % 256)
    (fun s => (s.readV x).toNat ≥ (s.readV y).toNat)) ∧
  (∀ x y, WritesRegAndFlag (.subn x y) x
    (fun s => ((s.readV y).toNat + 256 - (s.readV x).toNat) % 256)
    (fun s => (s.readV y).toNat ≥ (s.readV x).toNat))

/-- R128, R130. `SHR Vx` and `SHL Vx` by one position, in place, `VF` = the bit shifted out; `Vy` plays no part. That the
flag wins when `x = 15` is the spec's decision D8. -/
def Obligations.ShiftsSetShiftedOutBit : Prop :=
  EncodedAs 0xF00F#16 0x8006#16 (fun op => .shr (fieldX op) (fieldY op)) ∧
  EncodedAs 0xF00F#16 0x800E#16 (fun op => .shl (fieldX op) (fieldY op)) ∧
  (∀ x y, WritesRegAndFlag (.shr x y) x (fun s => (s.readV x).toNat / 2) (fun s => (s.readV x).toNat % 2 = 1)) ∧
  (∀ x y, WritesRegAndFlag (.shl x y) x (fun s => 2 * (s.readV x).toNat % 256) (fun s => (s.readV x).toNat ≥ 128))

/-- R131. `RND Vx, byte`: one draw, masked by `kk`; nothing is said of the draw itself, which is a
free value (the spec's decision D17). Its form, `Config.randomByte` at the model's own count of draws, and that the count
rises by one, are the model's (notes/assumptions/1.md). -/
def Obligations.RndMasksOneDraw : Prop :=
  EncodedAs 0xF000#16 0xC000#16 (fun op => .rnd (fieldX op) (fieldByte op)) ∧
  (∀ (s : State) (x : Nibble) (kk : Byte), ∃ t, exec (.rnd x kk) s = .next t ∧
    (t.readV x).toNat = (Config.randomByte s.draws).toNat &&& kk.toNat ∧ t.draws = s.draws + 1 ∧
    SameRegsBut [x] s t ∧ SameBut [.draws] s t)

/-! ## The address register and memory transfers (42_index_memory.md) -/

/-- R140, R141, R142. `LD I, addr`, `ADD I, Vx` (modulo 4096, no flag), `LD F, Vx` (five times the whole
byte). The reduction of `I` is the spec's decision D2. -/
def Obligations.IndexRegisterLoads : Prop :=
  EncodedAs 0xF000#16 0xA000#16 (fun op => .ldI (fieldAddr op)) ∧
  EncodedAs 0xF0FF#16 0xF01E#16 (fun op => .addIVx (fieldX op)) ∧
  EncodedAs 0xF0FF#16 0xF029#16 (fun op => .ldF (fieldX op)) ∧
  (∀ addr, WritesIndex (.ldI addr) (fun _ => addr.toNat)) ∧
  (∀ x, WritesIndex (.addIVx x) (fun s => (s.i.toNat + (s.readV x).toNat) % 4096)) ∧
  (∀ x, WritesIndex (.ldF x) (fun s => 5 * (s.readV x).toNat))

/-- R143, whose operation the spec takes from general knowledge (G2, D15). `LD B, Vx` stores the hundreds, tens and ones
digits at `I`, `I + 1`, `I + 2` modulo 4096 and changes nothing else. -/
def Obligations.BcdStoresDigits : Prop :=
  EncodedAs 0xF0FF#16 0xF033#16 (fun op => .ldB (fieldX op)) ∧
  (∀ (s : State) (x : Nibble), s.mem.wf = true → ∃ t, exec (.ldB x) s = .next t ∧
    (t.readMem (s.effAddr 0)).toNat = (s.readV x).toNat / 100 ∧
    (t.readMem (s.effAddr 1)).toNat = (s.readV x).toNat / 10 % 10 ∧
    (t.readMem (s.effAddr 2)).toNat = (s.readV x).toNat % 10 ∧
    (∀ a, (∀ k, k < 3 → a % 4096 ≠ s.effAddr k) → t.readMem a = s.readMem a) ∧
    SameRegsBut [] s t ∧ SameBut [.mem] s t)

/-- R144, whose operation the spec takes from general knowledge (G3, D15). `LD [I], Vx` stores `V[0]` to `V[x]` at `I`
upwards modulo 4096 and changes nothing else, `I` included. -/
def Obligations.BlockStoreWritesRange : Prop :=
  EncodedAs 0xF0FF#16 0xF055#16 (fun op => .ldMemVx (fieldX op)) ∧
  (∀ (s : State) (x : Nibble), s.mem.wf = true → ∃ t, exec (.ldMemVx x) s = .next t ∧
    (∀ k : Nibble, k ≤ x → t.readMem (s.effAddr k.toNat) = s.readV k) ∧
    (∀ a, (∀ k : Nibble, k ≤ x → a % 4096 ≠ s.effAddr k.toNat) → t.readMem a = s.readMem a) ∧
    SameRegsBut [] s t ∧ SameBut [.mem] s t)

/-- R145, whose operation the spec takes from general knowledge (G4, D15). `LD Vx, [I]` loads `V[0]` to `V[x]` from `I`
upwards modulo 4096; registers above `x`, `I` and memory are unchanged. -/
def Obligations.BlockLoadReadsRange : Prop :=
  EncodedAs 0xF0FF#16 0xF065#16 (fun op => .ldVxMem (fieldX op)) ∧
  (∀ (s : State) (x : Nibble), ∃ t, exec (.ldVxMem x) s = .next t ∧
    (∀ k : Nibble, t.readV k = if k ≤ x then s.readMem (s.effAddr k.toNat) else s.readV k) ∧ SameBut [] s t)

/-! ## Display (43_display.md) -/

/-- R150. `CLS` turns every row dark and changes nothing else, `VF` included. -/
def Obligations.ClsClearsDisplay : Prop :=
  EncodedAs 0xFFFF#16 0x00E0#16 (fun _ => .cls) ∧
  (∀ s : State, ∃ t, exec .cls s = .next t ∧ (∀ (r : Nat) (h : r < 32), t.disp[r] = 0#64) ∧
    SameRegsBut [] s t ∧ SameBut [.disp] s t)

/-- R151. `DRW Vx, Vy, n`, pixel by pixel: the sprite's 1 bits inside the screen toggle their pixels, and `VF` is 1
exactly when one of those pixels was lit. Clipping at the right edge is the spec's decision D16. -/
def Obligations.DrwXorsSpritePixels : Prop :=
  EncodedAs 0xF000#16 0xD000#16 (fun op => .drw (fieldX op) (fieldY op) (fieldNibble op)) ∧
  (∀ (s : State) (x y n : Nibble), ∃ t, exec (.drw x y n) s = .next t ∧
    (∀ r c, r < 32 → c < 64 → pixel t.disp r c = (pixel s.disp r c ^^
      spritePixel s ((s.readV x).toNat % 64) ((s.readV y).toNat % 32) n.toNat r c)) ∧
    ((∃ r c, r < 32 ∧ c < 64 ∧ pixel s.disp r c = true ∧
      spritePixel s ((s.readV x).toNat % 64) ((s.readV y).toNat % 32) n.toNat r c = true) → t.readV 15#4 = 1#8) ∧
    (¬ (∃ r c, r < 32 ∧ c < 64 ∧ pixel s.disp r c = true ∧
      spritePixel s ((s.readV x).toNat % 64) ((s.readV y).toNat % 32) n.toNat r c = true) → t.readV 15#4 = 0#8) ∧
    SameRegsBut [15#4] s t ∧ SameBut [.disp] s t)

/-- R151, corner cases. Drawing the same sprite twice at the same place restores the display. The second draw reports a
collision exactly when some 1 bit of the sprite inside the screen fell on a pixel that was dark before the first draw; so,
where the first draw reports no collision, exactly when the sprite has a 1 bit inside the screen. The coordinates must not
be in `VF`, which the first draw writes. -/
def Obligations.DrawingTwiceRestoresDisplay : Prop :=
  ∀ (s : State) (x y n : Nibble), x ≠ 15#4 → y ≠ 15#4 → ∃ t u, exec (.drw x y n) s = .next t ∧
    exec (.drw x y n) t = .next u ∧ u.disp = s.disp ∧
    ((∃ r c, r < 32 ∧ c < 64 ∧ pixel s.disp r c = false ∧
      spritePixel s ((s.readV x).toNat % 64) ((s.readV y).toNat % 32) n.toNat r c = true) → u.readV 15#4 = 1#8) ∧
    (¬ (∃ r c, r < 32 ∧ c < 64 ∧ pixel s.disp r c = false ∧
      spritePixel s ((s.readV x).toNat % 64) ((s.readV y).toNat % 32) n.toNat r c = true) → u.readV 15#4 = 0#8) ∧
    (t.readV 15#4 = 0#8 → (u.readV 15#4 = 1#8 ↔ ∃ r c, r < 32 ∧ c < 64 ∧
      spritePixel s ((s.readV x).toNat % 64) ((s.readV y).toNat % 32) n.toNat r c = true))

/-! ## Keyboard and timers (44_keyboard_timers.md) -/

/-- R160, R161. `SKP Vx` and `SKNP Vx` skip when the key named by the low four bits of `V[x]` (the spec's decision D14) is
pressed and when it is not. -/
def Obligations.SkipsOnKeyState : Prop :=
  EncodedAs 0xF0FF#16 0xE09E#16 (fun op => .skp (fieldX op)) ∧
  EncodedAs 0xF0FF#16 0xE0A1#16 (fun op => .sknp (fieldX op)) ∧
  (∀ x, SkipsWhen (.skp x) (fun s => s.key[(s.readV x).toNat % 16]'(Nat.mod_lt _ (by decide)) = true)) ∧
  (∀ x, SkipsWhen (.sknp x) (fun s => s.key[(s.readV x).toNat % 16]'(Nat.mod_lt _ (by decide)) = false))

/-- R163, realised as the spec's decision D13 says. `LD Vx, K` takes the least pressed key; with no key down `PC` goes
back by 2 and nothing else changes. -/
def Obligations.KeyWaitTakesLeastKeyOrHolds : Prop :=
  EncodedAs 0xF0FF#16 0xF00A#16 (fun op => .ldVxK (fieldX op)) ∧
  (∀ (s : State) (x : Nibble) (k : Nat) (h : k < 16), s.key[k] = true → (∀ j (hj : j < k), s.key[j] = false) →
    ∃ t, exec (.ldVxK x) s = .next t ∧ (t.readV x).toNat = k ∧ SameRegsBut [x] s t ∧ SameBut [] s t) ∧
  (∀ (s : State) (x : Nibble), (∀ j (hj : j < 16), s.key[j] = false) →
    ∃ t, exec (.ldVxK x) s = .next t ∧ t.pc.toNat = (s.pc.toNat + 4094) % 4096 ∧
      SameRegsBut [] s t ∧ SameBut [.pc] s t)

/-- R162, R164, R165. Reading the delay timer, writing the delay timer, writing the sound timer. -/
def Obligations.TimerTransfers : Prop :=
  EncodedAs 0xF0FF#16 0xF007#16 (fun op => .ldVxDT (fieldX op)) ∧
  EncodedAs 0xF0FF#16 0xF015#16 (fun op => .ldDTVx (fieldX op)) ∧
  EncodedAs 0xF0FF#16 0xF018#16 (fun op => .ldSTVx (fieldX op)) ∧
  (∀ x, WritesReg (.ldVxDT x) x (fun s => s.dt.toNat)) ∧
  (∀ (s : State) x, ∃ t, exec (.ldDTVx x) s = .next t ∧ t.dt = s.readV x ∧ SameRegsBut [] s t ∧ SameBut [.dt] s t) ∧
  (∀ (s : State) x, ∃ t, exec (.ldSTVx x) s = .next t ∧ t.st = s.readV x ∧ SameRegsBut [] s t ∧ SameBut [.st] s t)

/-! ## Encoding (30_encoding.md) -/

/-- Words of the spec's examples and vectors (95_test_vectors.md sections 1.3, 1.5, 2.2), written out, decode to the
instructions they stand for, one of every family at least. -/
def Obligations.SpecWordsDecode : Prop :=
  decode 0x00EE#16 = .ok .ret ∧ decode 0xBFFF#16 = .ok (.jpV0 0xFFF) ∧ decode 0x33F4#16 = .ok (.seByte 3 244) ∧
  decode 0x512F#16 = .ok (.seReg 1 2) ∧ decode 0x8240#16 = .ok (.ldReg 2 4) ∧ decode 0x8ABE#16 = .ok (.shl 10 11) ∧
  decode 0x8AB8#16 = .error .family8 ∧ decode 0xF465#16 = .ok (.ldVxMem 4) ∧ decode 0xA2F0#16 = .ok (.ldI 0x2F0) ∧
  decode 0x00E0#16 = .ok .cls ∧ decode 0xD34A#16 = .ok (.drw 3 4 10) ∧ decode 0xE59E#16 = .ok (.skp 5) ∧
  decode 0xE50E#16 = .error .familyE ∧ decode 0xF50A#16 = .ok (.ldVxK 5) ∧ decode 0xF575#16 = .error .familyF ∧
  decode 0x0FFF#16 = .error .family0

/-- The decode algorithm of R64 and the match/mask table of R65 agree: a word has a name exactly when it matches the
name's row, so every word matches at most one row. -/
def Obligations.DecoderIsOpcodeTable : Prop :=
  ∀ (op : Word) (n : Name), nameOf op = .ok n ↔ op &&& n.mask = n.base

/-- The words the decoder refuses are exactly those of the four families of R67. -/
def Obligations.UnrecognisedWordsAreFourFamilies : Prop :=
  ∀ op : Word, (∃ e, decode op = .error e) ↔
    ((op.toNat / 4096 = 0 ∧ op.toNat ≠ 0x00E0 ∧ op.toNat ≠ 0x00EE) ∨
     (op.toNat / 4096 = 8 ∧ op.toNat % 16 ∈ [8, 9, 10, 11, 12, 13, 15]) ∨
     (op.toNat / 4096 = 14 ∧ op.toNat % 256 ∉ [0x9E, 0xA1]) ∨
     (op.toNat / 4096 = 15 ∧ op.toNat % 256 ∉ [0x07, 0x0A, 0x15, 0x18, 0x1E, 0x29, 0x33, 0x55, 0x65]))

/-- Decoding an encoded instruction gives it back, for every instruction and every operand value; the bytes in memory
order too. -/
def Obligations.DecodeEncodeRoundTrip : Prop :=
  ∀ i : Instr, decode (encode i) = .ok i ∧ ∀ rest, decodeBytes (encodeBytes i ++ rest) = .ok (i, rest)

/-- Encoding a decoded instruction gives back the word, but for the bottom nibble of the `0x5` and `0x9` families, which
the canonical word has at 0 (R66, R81). -/
def Obligations.EncodeDecodeIsCanonicalWord : Prop :=
  ∀ (op : Word) (i : Instr), decode op = .ok i →
    encode i = if topNibble op = 5#4 ∨ topNibble op = 9#4 then op &&& 0xFFF0#16 else op

/-- R66. `5xyN` and `9xyN` execute as `5xy0` and `9xy0` for every `N`, and the canonical encoding has `N = 0`
(the spec's decision D10). -/
def Obligations.SkipAliasesExecuteAlike : Prop :=
  ∀ (x y n : Nibble) (s : State),
    decode (0x5#4 ++ x ++ y ++ n) = .ok (.seReg x y) ∧ decode (0x9#4 ++ x ++ y ++ n) = .ok (.sneReg x y) ∧
    encode (.seReg x y) = 0x5#4 ++ x ++ y ++ 0#4 ∧ encode (.sneReg x y) = 0x9#4 ++ x ++ y ++ 0#4 ∧
    execute (0x5#4 ++ x ++ y ++ n) s = execute (0x5#4 ++ x ++ y ++ 0#4) s ∧
    execute (0x9#4 ++ x ++ y ++ n) s = execute (0x9#4 ++ x ++ y ++ 0#4) s

/-! ## The assembler and the disassembler (30_encoding.md, toolchain) -/

/-- R84. For every instruction, assembling its text gives its word, name lookup gives its name, and disassembling gives
the text back. -/
def Obligations.AssemblerRoundTrip : Prop :=
  ∀ i : Instr, assembleLine [] (instrText i) = .ok (encode i) ∧ nameFromHex (encode i) = .ok i.name ∧
    disassemble (encode i) = .ok (instrText i)

/-- R73. The tokenizer: tokens are non-empty and hold no separator; a separator splits a line; separator-free text is one
token. -/
def Obligations.TokenizerSplitsAtSeparators : Prop :=
  (∀ line, ∀ t ∈ tokenize line, t ≠ [] ∧ ∀ c ∈ t, c ≠ ' ' ∧ c ≠ ',') ∧
  (∀ a b, tokenize (a ++ ' ' :: b) = tokenize a ++ tokenize b) ∧
  (∀ a b, tokenize (a ++ ',' :: b) = tokenize a ++ tokenize b) ∧
  (∀ t, t ≠ [] → (∀ c ∈ t, c ≠ ' ' ∧ c ≠ ',') → tokenize t = [t]) ∧ tokenize [] = []

/-- R77, with the starting address of the spec's decision D23. In a source that preprocesses, a label's value is 0x200
plus two for every instruction line before it, and the queue is the instruction lines in order. -/
def Obligations.LabelsAreInstructionAddresses : Prop :=
  ∀ (before after : List Text) (name : Text) (labels : LabelTable) (queue : List Text),
    preprocess 0x200 [] (before ++ (':' :: name) :: after) = .ok (labels, queue) →
    labelAddress name labels = some (0x200 + 2 * (before.filter (fun l => classify l == .instruction)).length) ∧
    queue = (before ++ after).filter (fun l => classify l == .instruction)

/-- R76. An operand too large for its field is truncated by the field's mask. -/
def Obligations.LargeOperandsAreTruncated : Prop :=
  ∀ (n : Name) (ops : List Nat), ops.length = n.fields.length →
    AsmInstr.encode { name := n, operands := ops } =
      AsmInstr.encode { name := n, operands := List.zipWith (fun v f => v % Field.size f) ops n.fields }

/-! ## The step (10_state.md, 20_memory.md) -/

/-- R15, R16, R43. On a core that is not halted a step fetches the big-endian word at `PC`, advances `PC` by 2 modulo
4096 (the place of the advance is the spec's decision D1) and executes the decoded instruction. -/
def Obligations.StepRunsDecodedInstruction : Prop :=
  ∀ (s : State) (op : Word) (i : Instr), s.faultReg = .none →
    op.toNat = 256 * (s.readMem s.pc.toNat).toNat + (s.readMem ((s.pc.toNat + 1) % 4096)).toNat →
    decode op = .ok i →
    ∃ u, step s = exec i u ∧ u.pc.toNat = (s.pc.toNat + 2) % 4096 ∧ SameRegsBut [] s u ∧ SameBut [.pc] s u ∧
      execute op s = exec i s

/-- R68. An unrecognised word changes nothing through `Execute`, and through `Step` nothing but `PC`, which advances by
2 modulo 4096 (the spec's decision D12). -/
def Obligations.UnrecognisedWordIsNoOperation : Prop :=
  ∀ (s : State) (e : DecodeError),
    (∀ op, decode op = .error e → execute op s = .next s) ∧
    (decode s.fetch = .error e → s.faultReg = .none → ∃ t, step s = .next t ∧
      t.pc.toNat = (s.pc.toNat + 2) % 4096 ∧ SameRegsBut [] s t ∧ SameBut [.pc] s t)

/-- A step is always possible (R193): every state has a next state. The two faults of R171 are next states too, with FAULT
set; that the interface's outcomes `fault` and `refused` never occur is the model's reading (notes/assumptions/11.md). -/
def Obligations.StepIsAlwaysPossible : Prop := ∀ s : State, ∃ t, step s = .next t

/-- R17, with the slot `SP` names read as in notes/assumptions/4.md. `PC` after a step, for every instruction and for
every unrecognised word, and on a halted core. -/
def Obligations.PcAfterEveryStep : Prop :=
  ∀ s : State, s.pc.toNat < 4096 →
    (s.faultReg ≠ .none → step s = .next s) ∧
    (s.faultReg = .none → ∃ t, step s = .next t ∧
      t.pc.toNat = match decode s.fetch with
        | .ok i => pcAfter i s
        | .error _ => (s.pc.toNat + 2) % 4096)

/-! ## Faults (60_exceptions.md) -/

/-- R26, R172, R173, which are the spec's decisions D7 and D30. Only `CALL` with `SP = 15` and `RET` with `SP = 0` change
FAULT, a step
that does so leaves everything else as it was before the step, and FAULT once set is changed by no operation but
`Reset`. -/
def Obligations.FaultsArePreciseAndSticky : Prop :=
  (∀ (i : Instr) (s t : State), exec i s = .next t → t.faultReg ≠ s.faultReg →
    ((∃ addr, i = .call addr) ∧ s.sp = 15#8 ∧ t.faultReg = .stackOverflow) ∨
    (i = .ret ∧ s.sp = 0#8 ∧ t.faultReg = .stackUnderflow)) ∧
  (∀ s t : State, s.pc.toNat < 4096 → step s = .next t → t.faultReg ≠ s.faultReg →
    s.faultReg = .none ∧ SameRegsBut [] s t ∧ SameBut [.fault] s t) ∧
  (∀ (font : Font) (e : Event) (s t : State), s.Failed → applyEvent font e s = .next t → e ≠ .reset →
    t.faultReg = s.faultReg) ∧
  (∀ (s : State) (op : Word), s.Failed → step s = .next s ∧ execute op s = .next s)

/-! ## Invariants -/

/-- Every step keeps a legal state legal: `I` and `PC` below 4096 (R13, R14, the spec's decision D2), `SP` at most 15 (R18),
and memory in the canonical form, which is the model's own (notes/assumptions/10.md). -/
def Obligations.StepKeepsLegalState : Prop := ∀ s t : State, s.Legal → step s = .next t → t.Legal

/-- The state after reset is legal, its stack slots are below 4096 (their reset value is the spec's decision D19) and it has
not failed (FAULT is the spec's decision D7). Legality includes the canonical form of memory, which is the model's own
(notes/assumptions/10.md). -/
def Obligations.ResetStateIsLegal : Prop := State.reset.Legal ∧ State.reset.StackLegal ∧ ¬ State.reset.Failed

/-- Every schedule of core and host operations keeps a legal state legal (R9, R182, R191). Legality includes the canonical
form of memory, which is the model's own (notes/assumptions/10.md). -/
def Obligations.EveryScheduleKeepsLegalState : Prop :=
  ∀ (font : Font) (es : List Event) (s t : State), s.Legal → runEvents font es s = .next t → t.Legal

/-- Steps keep every stack slot below 4096 (R19: a value stored by `2nnn` is always below 4096). -/
def Obligations.StepKeepsStackSlotsLegal : Prop :=
  ∀ s t : State, s.pc.toNat < 4096 → s.StackLegal → step s = .next t → t.StackLegal ∧ t.pc.toNat < 4096

/-- Two memories in canonical form that read alike everywhere are equal: a state has one representation. -/
def Obligations.CanonicalMemoriesAreDetermined : Prop :=
  ∀ m m' : Memory, m.wf = true → m'.wf = true → (∀ a, a < 4096 → m.read a = m'.read a) → m = m'

/-! ## Whole-machine rules -/

/-- Which instructions write which piece of state (the table of 10_state.md: R13, R18, R19, R21 to R24, R26, R27, R40). -/
def Obligations.OnlyListedInstructionsWrite : Prop :=
  ∀ (i : Instr) (s t : State), exec i s = .next t →
    (t.i ≠ s.i → i.name ∈ [.ldI, .addIVx, .ldF]) ∧
    (t.sp ≠ s.sp → i.name ∈ [.ret, .call]) ∧
    (t.stack ≠ s.stack → i.name = .call) ∧
    (t.dt ≠ s.dt → i.name = .ldDTVx) ∧
    (t.st ≠ s.st → i.name = .ldSTVx) ∧
    ((∃ a, t.readMem a ≠ s.readMem a) → i.name ∈ [.ldB, .ldMemVx]) ∧
    (t.disp ≠ s.disp → i.name ∈ [.cls, .drw]) ∧
    t.key = s.key ∧
    (t.faultReg ≠ s.faultReg → i.name ∈ [.ret, .call]) ∧
    (t.draws ≠ s.draws → i.name = .rnd)

/-- R11. An instruction changes a general register only if it names it as a plain destination, or the register is `VF`
and the instruction is one of the six that write it as a flag; those leave 0 or 1 there. -/
def Obligations.OnlyDestinationsAndFlagsChange : Prop :=
  ∀ (i : Instr) (s t : State), exec i s = .next t →
    (∀ r, t.readV r ≠ s.readV r → plainDest i r = true ∨ (r = 15#4 ∧ i.name ∈ flagWriters)) ∧
    (i.name ∈ flagWriters → t.readV 15#4 = 0#8 ∨ t.readV 15#4 = 1#8)

/-- R22, R185 (the spec's decision D28). The sound timer has no effect on other state: two steps from states
that differ in it alone end in states
that differ in it alone. -/
def Obligations.SoundTimerHasNoEffect : Prop :=
  ∀ (s t : State) (b : Byte), step s = .next t →
    ∃ t', step { s with st := b } = .next t' ∧ { t' with st := t.st } = t ∧ (t'.st = b ∨ t'.st = t.st)

/-- R193, whose idle loop is a convention of the spec (D29). A `JP` to its own address leaves the whole state unchanged at
every step. -/
def Obligations.SelfJumpIsFixedPoint : Prop :=
  ∀ (s : State) (addr : Addr), s.faultReg = .none → s.pc.toNat < 4096 → decode s.fetch = .ok (.jp addr) →
    addr.toNat = s.pc.toNat → step s = .next s

/-- R163. While no key is down, the step of `LD Vx, K` changes nothing; after the host presses a key, the next step
completes it with the least pressed key. -/
def Obligations.KeyWaitHoldsUntilPress : Prop :=
  ∀ (font : Font) (s : State) (x k : Nibble), s.faultReg = .none → s.pc.toNat < 4096 →
    decode s.fetch = .ok (.ldVxK x) →
    (∀ j (hj : j < 16), s.key[j] = false) →
    step s = .next s ∧
    ∃ t, runEvents font [.step, .setKey k true, .step] s = .next t ∧ (t.readV x).toNat = k.toNat ∧
      t.pc.toNat = (s.pc.toNat + 2) % 4096

/-- R50, the spec's decision D1. What `LD [I], Vx` or `LD B, Vx` stores at the address of the next instruction, one byte
of it or both, is what the next fetch reads there; a byte of it that the store does not reach is fetched as it was. The
memory before is in the model's canonical form (notes/assumptions/10.md). -/
def Obligations.StoredCodeIsFetched : Prop :=
  ∀ (s : State) (x : Nibble), s.mem.wf = true →
    (∃ t, exec (.ldMemVx x) s = .next t ∧ t.pc = s.pc ∧
      FetchSees s t (x.toNat + 1) (fun k => (s.readV (BitVec.ofNat 4 k)).toNat)) ∧
    (∃ t, exec (.ldB x) s = .next t ∧ t.pc = s.pc ∧
      FetchSees s t 3 (fun k => (s.readV x).toNat / 10 ^ (2 - k) % 10))

/-- R102, last paragraph. `CALL` followed at once by `RET` restores `PC` and `SP`. -/
def Obligations.CallThenRetRestores : Prop :=
  ∀ (s : State) (addr : Addr), s.pc.toNat < 4096 → s.sp.toNat < 15 → ∃ t u, exec (.call addr) s = .next t ∧
    exec .ret t = .next u ∧ u.pc = s.pc ∧ u.sp = s.sp ∧ SameRegsBut [] s u ∧ SameBut [.stack] s u

/-- R20. From an empty stack fifteen calls fit and the sixteenth raises `StackOverflow` (the spec's decision D5). -/
def Obligations.FifteenCallsFit : Prop :=
  ∀ (font : Font) (s : State) (addr : Addr) (n : Nat), s.faultReg = .none → s.sp = 0#8 → n ≤ 15 →
    ∃ t, runEvents font (List.replicate n (.execute (encode (.call addr)))) s = .next t ∧ t.sp.toNat = n ∧
      t.faultReg = .none ∧
      (n = 15 → ∃ u, execute (encode (.call addr)) t = .next u ∧ u.faultReg = .stackOverflow ∧ u.sp = t.sp)

/-! ## Host operations (60_exceptions.md, 70_reset_and_hazards.md) -/

/-- R28, R190, with the values of the spec's decisions D7 and D19. `Reset` puts every piece of state at its reset value,
whatever the state before: the 80 bytes of `FONT` (OPEN: the spec's decision D22; notes/assumptions/2.md) at 0x000 to
0x04F, those of glyph 0 as the source fixes them (R42), and 0 in memory beyond. Only the model's own count of draws goes
on (notes/assumptions/7.md). -/
def Obligations.ResetPutsEveryPiece : Prop :=
  GlyphZero Config.font ∧
  ∀ (font : Font) (s : State), ∃ t, applyEvent font .reset s = .next t ∧ (∀ r, t.readV r = 0#8) ∧ t.i = 0#16 ∧
    t.pc.toNat = 0x200 ∧ t.sp = 0#8 ∧ t.dt = 0#8 ∧ t.st = 0#8 ∧ (∀ (a : Nat) (h : a < 80), t.readMem a = font[a]) ∧
    (GlyphZero font → [0, 1, 2, 3, 4].map t.readMem = [0xF0, 0x90, 0x90, 0x90, 0xF0]) ∧
    (∀ a, 80 ≤ a → a < 4096 → t.readMem a = 0#8) ∧ (∀ (r : Nat) (h : r < 32), t.disp[r] = 0#64) ∧
    (∀ (k : Nat) (h : k < 16), t.stack[k] = 0#16) ∧ (∀ (k : Nat) (h : k < 16), t.key[k] = false) ∧
    t.faultReg.code = 0#2 ∧ t.draws = s.draws

/-- R4, R42. `resetWithFont font` is the model's own form of the state after reset of a machine with another `FONT`
(notes/assumptions/2.md), which the event `Reset` uses (ResetPutsEveryPiece): for every `font` it holds its 80 bytes at
0x000 to 0x04F and 0 elsewhere, is legal (memory in the model's canonical form, notes/assumptions/10.md), and is
otherwise the state after reset; the default value (the spec's decision D22) gives `State.reset` itself
and the host's `core`. -/
def Obligations.FontParameterIsResetContents : Prop :=
  resetWithFont Config.font = State.reset ∧ coreWithFont Config.font = core ∧
  ∀ font : Font,
    (∀ (a : Nat) (h : a < 80), (resetWithFont font).readMem a = font[a]) ∧
    (∀ a, 80 ≤ a → a < 4096 → (resetWithFont font).readMem a = 0#8) ∧ (resetWithFont font).Legal ∧
    SameRegsBut [] State.reset (resetWithFont font) ∧ SameBut [.mem] State.reset (resetWithFont font)

/-- R178. `TimerTick` lowers each non-zero timer by one and leaves a zero timer at zero (the stop at zero is the spec's
G5, from general knowledge); nothing else changes. -/
def Obligations.TimerTickCountsDown : Prop :=
  ∀ (font : Font) (s : State), ∃ t, applyEvent font .timerTick s = .next t ∧ t.dt.toNat = s.dt.toNat - 1 ∧
    t.st.toNat = s.st.toNat - 1 ∧
    SameRegsBut [] s t ∧ SameBut [.dt, .st] s t

/-- R179. `SetKey(k, b)` sets one key and changes nothing else. -/
def Obligations.SetKeySetsOneKey : Prop :=
  ∀ (font : Font) (s : State) (k : Nibble) (b : Bool), ∃ t, applyEvent font (.setKey k b) s = .next t ∧
    (∀ j, t.readKey j = if j = k then b else s.readKey j) ∧ SameRegsBut [] s t ∧ SameBut [.key] s t

/-- R182. The values `Poke` may store, element by element: below 256 in a register, a timer and a memory cell, below 4096
in `I` and `PC`, below 16 in `SP`, any 16 bits in a stack slot, any 64 bits in a row, a Boolean in a key, none in FAULT.
`Peek` then shows the value of that element and of no other; every other value is refused; `Peek` changes nothing. The
state before is legal, its memory in the model's canonical form (notes/assumptions/10.md). -/
def Obligations.PokeThenPeek : Prop :=
  (∀ x, PokesBelow (.v x) 256) ∧ PokesBelow .i 4096 ∧ PokesBelow .pc 4096 ∧ PokesBelow .sp 16 ∧
  (∀ k, PokesBelow (.stack k) 65536) ∧ PokesBelow .dt 256 ∧ PokesBelow .st 256 ∧ (∀ a, PokesBelow (.mem a) 256) ∧
  (∀ r, PokesBelow (.disp r) (2 ^ 64)) ∧ (∀ k, PokesBelow (.key k) 2) ∧
  (∀ (font : Font) (s : State) (n : Nat), applyEvent font (.poke .fault n) s = .refused .pokeRefused) ∧
  (∀ (font : Font) (s : State) (e : Element), applyEvent font (.peek e) s = .next s)

/-- R191. `LoadROM` copies an image of at most 3584 bytes to 0x200 upwards and writes nothing else; a longer one is
refused (the spec's decision D21). -/
def Obligations.LoadRomCopiesImage : Prop :=
  (∀ (font : Font) (s : State) (bytes : List Byte), s.mem.wf = true → bytes.length ≤ 3584 →
    ∃ t, applyEvent font (.loadROM bytes) s = .next t ∧
      (∀ (k : Nat) (h : k < bytes.length), t.readMem (0x200 + k) = bytes[k]) ∧
      (∀ a, a < 4096 → (a < 0x200 ∨ 0x200 + bytes.length ≤ a) → t.readMem a = s.readMem a) ∧
      SameRegsBut [] s t ∧ SameBut [.mem] s t) ∧
  (∀ (font : Font) (s : State) (bytes : List Byte), 3584 < bytes.length →
    applyEvent font (.loadROM bytes) s = .refused .romTooLong)

/-- R60, R80, R191 together. Words serialised into a ROM and loaded are the words fetched at 0x200, 0x202, ... -/
def Obligations.SerialisedWordsAreFetched : Prop :=
  ∀ (font : Font) (s : State) (ws : List Word), s.mem.wf = true → 2 * ws.length ≤ 3584 →
    (serialize ws).length = 2 * ws.length ∧
    ∃ t, applyEvent font (.loadROM (serialize ws)) s = .next t ∧
      ∀ (k : Nat) (h : k < ws.length) (pc : Word), pc.toNat = 0x200 + 2 * k → ({ t with pc := pc } : State).fetch = ws[k]

/-- The free interleaving of R9: timer ticks and key presses of the host change no general register, no memory byte, no
display row and no program counter, in any number and order. -/
def Obligations.TicksAndKeysLeaveProgramState : Prop :=
  ∀ (font : Font) (es : List Event) (s t : State), (∀ e ∈ es, e = .timerTick ∨ ∃ k b, e = .setKey k b) →
    runEvents font es s = .next t →
    SameRegsBut [] s t ∧ SameBut [.dt, .st, .key] s t
end

