-- ==== Sys2Proof/Laws/Decode.lean ====
section
/-!
SUPPORT. The fields and the masks of the encoding tables as numbers (spec/30_encoding.md R61, R65), and what a name tells
of the instruction.
-/

namespace Sys2Proof

theorem topNibble_toNat (op : Word) : (topNibble op).toNat = op.toNat / 4096 := by
  have := op.isLt
  rw [topNibble, BitVec.toNat_setWidth, BitVec.toNat_ushiftRight, Nat.shiftRight_eq_div_pow]
  omega

theorem fieldNibble_toNat (op : Word) : (fieldNibble op).toNat = op.toNat % 16 := by
  rw [fieldNibble, BitVec.toNat_setWidth, BitVec.toNat_and,
    show (0x000F#16).toNat = 2 ^ 4 - 1 from rfl, Nat.and_two_pow_sub_one_eq_mod]
  omega

theorem fieldByte_toNat (op : Word) : (fieldByte op).toNat = op.toNat % 256 := by
  rw [fieldByte, BitVec.toNat_setWidth, BitVec.toNat_and,
    show (0x00FF#16).toNat = 2 ^ 8 - 1 from rfl, Nat.and_two_pow_sub_one_eq_mod]
  omega

theorem fieldAddr_toNat (op : Word) : (fieldAddr op).toNat = op.toNat % 4096 := by
  rw [fieldAddr, BitVec.toNat_setWidth, BitVec.toNat_and,
    show (0x0FFF#16).toNat = 2 ^ 12 - 1 from rfl, Nat.and_two_pow_sub_one_eq_mod]
  omega

/-- A shift right before a mask is a mask after it. -/
theorem fieldX_toNat (op : Word) : (fieldX op).toNat = op.toNat / 256 % 16 := by
  have h : (op &&& 0x0F00#16) >>> 8 = (op >>> 8) &&& 0x000F#16 := by
    rw [BitVec.ushiftRight_and_distrib]; rfl
  rw [fieldX, h, BitVec.toNat_setWidth, BitVec.toNat_and, BitVec.toNat_ushiftRight, Nat.shiftRight_eq_div_pow,
    show (0x000F#16).toNat = 2 ^ 4 - 1 from rfl, Nat.and_two_pow_sub_one_eq_mod]
  omega

theorem fieldY_toNat (op : Word) : (fieldY op).toNat = op.toNat / 16 % 16 := by
  have h : (op &&& 0x00F0#16) >>> 4 = (op >>> 4) &&& 0x000F#16 := by
    rw [BitVec.ushiftRight_and_distrib]; rfl
  rw [fieldY, h, BitVec.toNat_setWidth, BitVec.toNat_and, BitVec.toNat_ushiftRight, Nat.shiftRight_eq_div_pow,
    show (0x000F#16).toNat = 2 ^ 4 - 1 from rfl, Nat.and_two_pow_sub_one_eq_mod]
  omega

/-- The top nibble under its mask. -/
theorem and_F000_toNat (op : Word) : (op &&& 0xF000#16).toNat = op.toNat / 4096 * 4096 := by
  have h : op &&& 0xF000#16 = (op >>> 12) <<< 12 := by
    ext k hk
    simp only [BitVec.getElem_and, BitVec.getElem_shiftLeft, BitVec.getElem_ushiftRight]
    rcases Nat.lt_or_ge k 12 with h | h
    · simp only [h, decide_true, Bool.not_true, Bool.false_and]
      interval_cases k <;> simp
    · simp only [show ¬ k < 12 by omega, decide_false, Bool.not_false, Bool.true_and]
      interval_cases k <;> simp
  have := op.isLt
  rw [h, BitVec.toNat_shiftLeft, BitVec.toNat_ushiftRight, Nat.shiftRight_eq_div_pow, Nat.shiftLeft_eq]
  omega

/-- The masks of R65 as numbers: top nibble and bottom nibble. -/
theorem and_F00F_toNat (op : Word) : (op &&& 0xF00F#16).toNat = op.toNat / 4096 * 4096 + op.toNat % 16 := by
  have h : op &&& 0xF00F#16 = (op &&& 0xF000#16) + (op &&& 0x000F#16) := by
    rw [BitVec.add_eq_or_of_and_eq_zero]
    · rw [← BitVec.and_or_distrib_left]; rfl
    · rw [BitVec.and_assoc, ← BitVec.and_assoc 0xF000#16, BitVec.and_comm 0xF000#16 op, BitVec.and_assoc op,
        show 0xF000#16 &&& 0x000F#16 = 0#16 from rfl]
      simp
  have := op.isLt
  have e : (op &&& 0x000F#16).toNat = op.toNat % 16 := by
    rw [BitVec.toNat_and, show (0x000F#16).toNat = 2 ^ 4 - 1 from rfl, Nat.and_two_pow_sub_one_eq_mod]
  rw [h, BitVec.toNat_add, and_F000_toNat, e]
  omega

/-- The masks of R65 as numbers: top nibble and bottom byte. -/
theorem and_F0FF_toNat (op : Word) : (op &&& 0xF0FF#16).toNat = op.toNat / 4096 * 4096 + op.toNat % 256 := by
  have h : op &&& 0xF0FF#16 = (op &&& 0xF000#16) + (op &&& 0x00FF#16) := by
    rw [BitVec.add_eq_or_of_and_eq_zero]
    · rw [← BitVec.and_or_distrib_left]; rfl
    · rw [BitVec.and_assoc, ← BitVec.and_assoc 0xF000#16, BitVec.and_comm 0xF000#16 op, BitVec.and_assoc op,
        show 0xF000#16 &&& 0x00FF#16 = 0#16 from rfl]
      simp
  have := op.isLt
  have e : (op &&& 0x00FF#16).toNat = op.toNat % 256 := by
    rw [BitVec.toNat_and, show (0x00FF#16).toNat = 2 ^ 8 - 1 from rfl, Nat.and_two_pow_sub_one_eq_mod]
  rw [h, BitVec.toNat_add, and_F000_toNat, e]
  omega

/-- The instruction built for a name has that name. -/
theorem instrOf_name (n : Name) (op : Word) : (instrOf n op).name = n := by cases n <;> rfl

/-- A word decodes to an instruction exactly when its name is the instruction's and its fields are the instruction's. -/
theorem decode_eq_ok (op : Word) (i : Instr) : decode op = .ok i ↔ nameOf op = .ok i.name ∧ instrOf i.name op = i := by
  simp only [decode]
  cases h : nameOf op with
  | error e => simp
  | ok n =>
    constructor
    · intro hi
      cases hi
      rw [instrOf_name]
      exact ⟨rfl, rfl⟩
    · rintro ⟨hn, hi⟩
      cases hn
      exact congrArg Except.ok hi

/-- A word is refused exactly when it has no name. -/
theorem decode_eq_error (op : Word) (e : DecodeError) : decode op = .error e ↔ nameOf op = .error e := by
  simp only [decode]
  cases nameOf op <;> simp

end Sys2Proof
end

