-- ==== Sys2Proof/Laws/Memory.lean ====
section
/-!
SUPPORT. The laws of memory: every operation keeps the canonical form, a read after a write gives the byte written, and a
write leaves every other cell alone (spec/20_memory.md R44, R47).
-/

namespace Sys2Proof.Machine

/-- The bound on the first address may be lowered. -/
theorem Memory.wfFrom_mono {lo lo' : Nat} (h : lo' ≤ lo) {m : Memory} (hm : Memory.wfFrom lo m = true) :
    Memory.wfFrom lo' m = true := by
  cases m with
  | nil => rfl
  | cons c m =>
    simp only [Memory.wfFrom, Bool.and_eq_true, decide_eq_true_eq] at hm ⊢
    exact ⟨⟨⟨by omega, hm.1.1.2⟩, hm.1.2⟩, hm.2⟩

/-- Below the first listed address a memory reads as its reset contents. -/
theorem Memory.find_of_wfFrom {lo a : Nat} {m : Memory} (hm : Memory.wfFrom lo m = true) (h : a < lo) :
    Memory.find a m = Memory.unlisted a := by
  induction m generalizing lo with
  | nil => rfl
  | cons c m ih =>
    simp only [Memory.wfFrom, Bool.and_eq_true, decide_eq_true_eq] at hm
    have hne : c.1 ≠ a := by omega
    simp only [Memory.find, if_neg hne]
    exact ih hm.2 (by omega)

/-- Putting a byte into a cell keeps the canonical form. -/
theorem Memory.wfFrom_put {lo a : Nat} {b : Byte} {m : Memory} (hm : Memory.wfFrom lo m = true) (hlo : lo ≤ a)
    (ha : a < 4096) : Memory.wfFrom lo (Memory.put a b m) = true := by
  induction m generalizing lo with
  | nil =>
    simp only [Memory.put]
    split
    · rfl
    · simp_all [Memory.wfFrom]
  | cons c m ih =>
    have hm' := hm
    simp only [Memory.wfFrom, Bool.and_eq_true, decide_eq_true_eq] at hm'
    obtain ⟨⟨⟨h1, h2⟩, h3⟩, h4⟩ := hm'
    simp only [Memory.put]
    split
    · split
      · exact hm
      · rename_i hac hb
        simp only [Memory.wfFrom, Bool.and_eq_true, decide_eq_true_eq]
        exact ⟨⟨⟨hlo, ha⟩, hb⟩, ⟨⟨by omega, h2⟩, h3⟩, h4⟩
    · split
      · rename_i hac heq
        split
        · exact Memory.wfFrom_mono (by omega) h4
        · rename_i hb
          simp only [Memory.wfFrom, Bool.and_eq_true, decide_eq_true_eq]
          exact ⟨⟨⟨hlo, ha⟩, hb⟩, heq ▸ h4⟩
      · simp only [Memory.wfFrom, Bool.and_eq_true, decide_eq_true_eq]
        exact ⟨⟨⟨h1, h2⟩, h3⟩, ih h4 (by omega)⟩

/-- Every write keeps the canonical form. -/
theorem Memory.wf_write {m : Memory} (hm : m.wf = true) (a : Nat) (b : Byte) : (m.write a b).wf = true :=
  Memory.wfFrom_put hm (Nat.zero_le _) (Nat.mod_lt _ (by decide))

/-- Every sequence of writes keeps the canonical form. -/
theorem Memory.wf_writeList {m : Memory} (hm : m.wf = true) (a : Nat) (bs : List Byte) :
    (m.writeList a bs).wf = true := by
  induction bs generalizing m a with
  | nil => exact hm
  | cons b bs ih => exact ih (Memory.wf_write hm a b) (a + 1)

/-- A put leaves every other cell alone, whatever the form of the memory. -/
theorem Memory.find_put_ne {a c : Nat} (b : Byte) (m : Memory) (h : c ≠ a) :
    Memory.find c (Memory.put a b m) = Memory.find c m := by
  induction m with
  | nil =>
    simp only [Memory.put]
    split
    · rfl
    · simp [Memory.find, Ne.symm h]
  | cons d m ih =>
    simp only [Memory.put]
    split
    · split
      · rfl
      · simp [Memory.find, Ne.symm h]
    · split
      · rename_i heq
        have hd : d.1 ≠ c := by omega
        split <;> simp [Memory.find, Ne.symm h, hd]
      · simp only [Memory.find, ih]

/-- A put stores its byte in a canonical memory. -/
theorem Memory.find_put_self {lo a : Nat} (b : Byte) {m : Memory} (hm : Memory.wfFrom lo m = true) :
    Memory.find a (Memory.put a b m) = b := by
  induction m generalizing lo with
  | nil =>
    simp only [Memory.put]
    split <;> simp_all [Memory.find]
  | cons d m ih =>
    have hm' := hm
    simp only [Memory.wfFrom, Bool.and_eq_true, decide_eq_true_eq] at hm'
    obtain ⟨⟨⟨h1, h2⟩, h3⟩, h4⟩ := hm'
    simp only [Memory.put]
    split
    · rename_i hlt
      split
      · rename_i hb
        rw [hb, Memory.find, if_neg (by omega)]
        exact Memory.find_of_wfFrom h4 (by omega)
      · simp [Memory.find]
    · split
      · rename_i heq
        split
        · rename_i hb
          rw [hb]
          exact Memory.find_of_wfFrom h4 (by omega)
        · simp [Memory.find]
      · rename_i hne
        rw [Memory.find, if_neg (by omega)]
        exact ih h4

/-- A write leaves every other cell alone. -/
theorem Memory.read_write_ne {m : Memory} {a c : Nat} (b : Byte) (h : c % 4096 ≠ a % 4096) :
    (m.write a b).read c = m.read c :=
  Memory.find_put_ne b m h

/-- A read of the cell just written gives the byte written. -/
theorem Memory.read_write_self {m : Memory} (hm : m.wf = true) {a c : Nat} (b : Byte) (h : c % 4096 = a % 4096) :
    (m.write a b).read c = b := by
  rw [Memory.read, h]
  exact Memory.find_put_self b hm

/-- A read after a write, in one equation. -/
theorem Memory.read_write {m : Memory} (hm : m.wf = true) (a c : Nat) (b : Byte) :
    (m.write a b).read c = if c % 4096 = a % 4096 then b else m.read c := by
  split
  · exact Memory.read_write_self hm b ‹_›
  · exact Memory.read_write_ne b ‹_›

/-- Reads see addresses modulo 4096 (R44). -/
theorem Memory.read_mod (m : Memory) (a : Nat) : m.read (a % 4096) = m.read a := by
  simp only [Memory.read, Nat.mod_mod]

/-- A sequence of writes leaves the cells outside it alone. -/
theorem Memory.read_writeList_ne {m : Memory} {a c : Nat} {bs : List Byte}
    (h : ∀ k, k < bs.length → c % 4096 ≠ (a + k) % 4096) : (m.writeList a bs).read c = m.read c := by
  induction bs generalizing m a with
  | nil => rfl
  | cons b bs ih =>
    rw [Memory.writeList, ih fun k hk => ?_]
    · exact Memory.read_write_ne b (h 0 (by simp))
    · have := h (k + 1) (by simpa using hk)
      rwa [show a + 1 + k = a + (k + 1) by omega]

/-- A sequence of writes no longer than the memory stores each of its bytes. -/
theorem Memory.read_writeList {m : Memory} (hm : m.wf = true) {a : Nat} {bs : List Byte} (hl : bs.length ≤ 4096)
    {k : Nat} (hk : k < bs.length) : (m.writeList a bs).read (a + k) = bs[k] := by
  induction bs generalizing m a k with
  | nil => simp at hk
  | cons b bs ih =>
    simp only [List.length_cons] at hl hk
    rw [Memory.writeList]
    cases k with
    | zero =>
      rw [Memory.read_writeList_ne fun j hj => by omega]
      exact Memory.read_write_self hm b rfl
    | succ k =>
      have := ih (Memory.wf_write hm a b) (a := a + 1) (by omega) (k := k) (by omega)
      rw [show a + (k + 1) = a + 1 + k by omega, this]
      rfl

end Sys2Proof.Machine
end

