-- ==== Sys2Proof/Laws/State.lean ====
section
/-!
SUPPORT. One lemma per field per update of the state, and per reader per update it does not see.
-/

namespace Sys2Proof.Machine

variable (s : State)

@[simp] theorem State.writeV_v (x : Nibble) (b : Byte) : (s.writeV x b).v = s.v.set x.toNat b := rfl
@[simp] theorem State.writeV_i (x : Nibble) (b : Byte) : (s.writeV x b).i = s.i := rfl
@[simp] theorem State.writeV_pc (x : Nibble) (b : Byte) : (s.writeV x b).pc = s.pc := rfl
@[simp] theorem State.writeV_sp (x : Nibble) (b : Byte) : (s.writeV x b).sp = s.sp := rfl
@[simp] theorem State.writeV_stack (x : Nibble) (b : Byte) : (s.writeV x b).stack = s.stack := rfl
@[simp] theorem State.writeV_dt (x : Nibble) (b : Byte) : (s.writeV x b).dt = s.dt := rfl
@[simp] theorem State.writeV_st (x : Nibble) (b : Byte) : (s.writeV x b).st = s.st := rfl
@[simp] theorem State.writeV_mem (x : Nibble) (b : Byte) : (s.writeV x b).mem = s.mem := rfl
@[simp] theorem State.writeV_disp (x : Nibble) (b : Byte) : (s.writeV x b).disp = s.disp := rfl
@[simp] theorem State.writeV_key (x : Nibble) (b : Byte) : (s.writeV x b).key = s.key := rfl
@[simp] theorem State.writeV_faultReg (x : Nibble) (b : Byte) : (s.writeV x b).faultReg = s.faultReg := rfl
@[simp] theorem State.writeV_draws (x : Nibble) (b : Byte) : (s.writeV x b).draws = s.draws := rfl
@[simp] theorem State.writeV_readMem (x : Nibble) (b : Byte) (c : Nat) : (s.writeV x b).readMem c = s.readMem c := rfl
@[simp] theorem State.writeV_effAddr (x : Nibble) (b : Byte) (j : Nat) : (s.writeV x b).effAddr j = s.effAddr j := rfl
@[simp] theorem State.writeV_readKey (x : Nibble) (b : Byte) (j : Nibble) : (s.writeV x b).readKey j = s.readKey j := rfl
@[simp] theorem State.writeV_readStack (x : Nibble) (b : Byte) (q : Byte) : (s.writeV x b).readStack q = s.readStack q := rfl

@[simp] theorem State.writeVFlag_i (x : Nibble) (b f : Byte) : (s.writeVFlag x b f).i = s.i := rfl
@[simp] theorem State.writeVFlag_pc (x : Nibble) (b f : Byte) : (s.writeVFlag x b f).pc = s.pc := rfl
@[simp] theorem State.writeVFlag_sp (x : Nibble) (b f : Byte) : (s.writeVFlag x b f).sp = s.sp := rfl
@[simp] theorem State.writeVFlag_stack (x : Nibble) (b f : Byte) : (s.writeVFlag x b f).stack = s.stack := rfl
@[simp] theorem State.writeVFlag_dt (x : Nibble) (b f : Byte) : (s.writeVFlag x b f).dt = s.dt := rfl
@[simp] theorem State.writeVFlag_st (x : Nibble) (b f : Byte) : (s.writeVFlag x b f).st = s.st := rfl
@[simp] theorem State.writeVFlag_mem (x : Nibble) (b f : Byte) : (s.writeVFlag x b f).mem = s.mem := rfl
@[simp] theorem State.writeVFlag_disp (x : Nibble) (b f : Byte) : (s.writeVFlag x b f).disp = s.disp := rfl
@[simp] theorem State.writeVFlag_key (x : Nibble) (b f : Byte) : (s.writeVFlag x b f).key = s.key := rfl
@[simp] theorem State.writeVFlag_faultReg (x : Nibble) (b f : Byte) : (s.writeVFlag x b f).faultReg = s.faultReg := rfl
@[simp] theorem State.writeVFlag_draws (x : Nibble) (b f : Byte) : (s.writeVFlag x b f).draws = s.draws := rfl
@[simp] theorem State.writeVFlag_readMem (x : Nibble) (b f : Byte) (c : Nat) : (s.writeVFlag x b f).readMem c = s.readMem c := rfl
@[simp] theorem State.writeVFlag_effAddr (x : Nibble) (b f : Byte) (j : Nat) : (s.writeVFlag x b f).effAddr j = s.effAddr j := rfl
@[simp] theorem State.writeVFlag_readKey (x : Nibble) (b f : Byte) (j : Nibble) : (s.writeVFlag x b f).readKey j = s.readKey j := rfl
@[simp] theorem State.writeVFlag_readStack (x : Nibble) (b f : Byte) (q : Byte) : (s.writeVFlag x b f).readStack q = s.readStack q := rfl

@[simp] theorem State.setI_v (w : Word) : (s.setI w).v = s.v := rfl
@[simp] theorem State.setI_i (w : Word) : (s.setI w).i = mask12 w := rfl
@[simp] theorem State.setI_pc (w : Word) : (s.setI w).pc = s.pc := rfl
@[simp] theorem State.setI_sp (w : Word) : (s.setI w).sp = s.sp := rfl
@[simp] theorem State.setI_stack (w : Word) : (s.setI w).stack = s.stack := rfl
@[simp] theorem State.setI_dt (w : Word) : (s.setI w).dt = s.dt := rfl
@[simp] theorem State.setI_st (w : Word) : (s.setI w).st = s.st := rfl
@[simp] theorem State.setI_mem (w : Word) : (s.setI w).mem = s.mem := rfl
@[simp] theorem State.setI_disp (w : Word) : (s.setI w).disp = s.disp := rfl
@[simp] theorem State.setI_key (w : Word) : (s.setI w).key = s.key := rfl
@[simp] theorem State.setI_faultReg (w : Word) : (s.setI w).faultReg = s.faultReg := rfl
@[simp] theorem State.setI_draws (w : Word) : (s.setI w).draws = s.draws := rfl
@[simp] theorem State.setI_readV (w : Word) (r : Nibble) : (s.setI w).readV r = s.readV r := rfl
@[simp] theorem State.setI_readMem (w : Word) (c : Nat) : (s.setI w).readMem c = s.readMem c := rfl
@[simp] theorem State.setI_readKey (w : Word) (j : Nibble) : (s.setI w).readKey j = s.readKey j := rfl
@[simp] theorem State.setI_readStack (w : Word) (q : Byte) : (s.setI w).readStack q = s.readStack q := rfl

@[simp] theorem State.setPc_v (w : Word) : (s.setPc w).v = s.v := rfl
@[simp] theorem State.setPc_i (w : Word) : (s.setPc w).i = s.i := rfl
@[simp] theorem State.setPc_pc (w : Word) : (s.setPc w).pc = mask12 w := rfl
@[simp] theorem State.setPc_sp (w : Word) : (s.setPc w).sp = s.sp := rfl
@[simp] theorem State.setPc_stack (w : Word) : (s.setPc w).stack = s.stack := rfl
@[simp] theorem State.setPc_dt (w : Word) : (s.setPc w).dt = s.dt := rfl
@[simp] theorem State.setPc_st (w : Word) : (s.setPc w).st = s.st := rfl
@[simp] theorem State.setPc_mem (w : Word) : (s.setPc w).mem = s.mem := rfl
@[simp] theorem State.setPc_disp (w : Word) : (s.setPc w).disp = s.disp := rfl
@[simp] theorem State.setPc_key (w : Word) : (s.setPc w).key = s.key := rfl
@[simp] theorem State.setPc_faultReg (w : Word) : (s.setPc w).faultReg = s.faultReg := rfl
@[simp] theorem State.setPc_draws (w : Word) : (s.setPc w).draws = s.draws := rfl
@[simp] theorem State.setPc_readV (w : Word) (r : Nibble) : (s.setPc w).readV r = s.readV r := rfl
@[simp] theorem State.setPc_readMem (w : Word) (c : Nat) : (s.setPc w).readMem c = s.readMem c := rfl
@[simp] theorem State.setPc_effAddr (w : Word) (j : Nat) : (s.setPc w).effAddr j = s.effAddr j := rfl
@[simp] theorem State.setPc_readKey (w : Word) (j : Nibble) : (s.setPc w).readKey j = s.readKey j := rfl
@[simp] theorem State.setPc_readStack (w : Word) (q : Byte) : (s.setPc w).readStack q = s.readStack q := rfl

@[simp] theorem State.advance_v : (s.advance).v = s.v := rfl
@[simp] theorem State.advance_i : (s.advance).i = s.i := rfl
@[simp] theorem State.advance_pc : (s.advance).pc = mask12 (s.pc + 2#16) := rfl
@[simp] theorem State.advance_sp : (s.advance).sp = s.sp := rfl
@[simp] theorem State.advance_stack : (s.advance).stack = s.stack := rfl
@[simp] theorem State.advance_dt : (s.advance).dt = s.dt := rfl
@[simp] theorem State.advance_st : (s.advance).st = s.st := rfl
@[simp] theorem State.advance_mem : (s.advance).mem = s.mem := rfl
@[simp] theorem State.advance_disp : (s.advance).disp = s.disp := rfl
@[simp] theorem State.advance_key : (s.advance).key = s.key := rfl
@[simp] theorem State.advance_faultReg : (s.advance).faultReg = s.faultReg := rfl
@[simp] theorem State.advance_draws : (s.advance).draws = s.draws := rfl
@[simp] theorem State.advance_readV (r : Nibble) : (s.advance).readV r = s.readV r := rfl
@[simp] theorem State.advance_readMem (c : Nat) : (s.advance).readMem c = s.readMem c := rfl
@[simp] theorem State.advance_effAddr (j : Nat) : (s.advance).effAddr j = s.effAddr j := rfl
@[simp] theorem State.advance_readKey (j : Nibble) : (s.advance).readKey j = s.readKey j := rfl
@[simp] theorem State.advance_readStack (q : Byte) : (s.advance).readStack q = s.readStack q := rfl

@[simp] theorem State.retreat_v : (s.retreat).v = s.v := rfl
@[simp] theorem State.retreat_i : (s.retreat).i = s.i := rfl
@[simp] theorem State.retreat_pc : (s.retreat).pc = mask12 (s.pc - 2#16) := rfl
@[simp] theorem State.retreat_sp : (s.retreat).sp = s.sp := rfl
@[simp] theorem State.retreat_stack : (s.retreat).stack = s.stack := rfl
@[simp] theorem State.retreat_dt : (s.retreat).dt = s.dt := rfl
@[simp] theorem State.retreat_st : (s.retreat).st = s.st := rfl
@[simp] theorem State.retreat_mem : (s.retreat).mem = s.mem := rfl
@[simp] theorem State.retreat_disp : (s.retreat).disp = s.disp := rfl
@[simp] theorem State.retreat_key : (s.retreat).key = s.key := rfl
@[simp] theorem State.retreat_faultReg : (s.retreat).faultReg = s.faultReg := rfl
@[simp] theorem State.retreat_draws : (s.retreat).draws = s.draws := rfl
@[simp] theorem State.retreat_readV (r : Nibble) : (s.retreat).readV r = s.readV r := rfl
@[simp] theorem State.retreat_readMem (c : Nat) : (s.retreat).readMem c = s.readMem c := rfl
@[simp] theorem State.retreat_effAddr (j : Nat) : (s.retreat).effAddr j = s.effAddr j := rfl
@[simp] theorem State.retreat_readKey (j : Nibble) : (s.retreat).readKey j = s.readKey j := rfl
@[simp] theorem State.retreat_readStack (q : Byte) : (s.retreat).readStack q = s.readStack q := rfl

@[simp] theorem State.writeStack_v (k : Byte) (w : Word) : (s.writeStack k w).v = s.v := rfl
@[simp] theorem State.writeStack_i (k : Byte) (w : Word) : (s.writeStack k w).i = s.i := rfl
@[simp] theorem State.writeStack_pc (k : Byte) (w : Word) : (s.writeStack k w).pc = s.pc := rfl
@[simp] theorem State.writeStack_sp (k : Byte) (w : Word) : (s.writeStack k w).sp = s.sp := rfl
@[simp] theorem State.writeStack_dt (k : Byte) (w : Word) : (s.writeStack k w).dt = s.dt := rfl
@[simp] theorem State.writeStack_st (k : Byte) (w : Word) : (s.writeStack k w).st = s.st := rfl
@[simp] theorem State.writeStack_mem (k : Byte) (w : Word) : (s.writeStack k w).mem = s.mem := rfl
@[simp] theorem State.writeStack_disp (k : Byte) (w : Word) : (s.writeStack k w).disp = s.disp := rfl
@[simp] theorem State.writeStack_key (k : Byte) (w : Word) : (s.writeStack k w).key = s.key := rfl
@[simp] theorem State.writeStack_faultReg (k : Byte) (w : Word) : (s.writeStack k w).faultReg = s.faultReg := rfl
@[simp] theorem State.writeStack_draws (k : Byte) (w : Word) : (s.writeStack k w).draws = s.draws := rfl
@[simp] theorem State.writeStack_readV (k : Byte) (w : Word) (r : Nibble) : (s.writeStack k w).readV r = s.readV r := rfl
@[simp] theorem State.writeStack_readMem (k : Byte) (w : Word) (c : Nat) : (s.writeStack k w).readMem c = s.readMem c := rfl
@[simp] theorem State.writeStack_effAddr (k : Byte) (w : Word) (j : Nat) : (s.writeStack k w).effAddr j = s.effAddr j := rfl
@[simp] theorem State.writeStack_readKey (k : Byte) (w : Word) (j : Nibble) : (s.writeStack k w).readKey j = s.readKey j := rfl

@[simp] theorem State.push_v : (s.push).v = s.v := rfl
@[simp] theorem State.push_i : (s.push).i = s.i := rfl
@[simp] theorem State.push_pc : (s.push).pc = s.pc := rfl
@[simp] theorem State.push_sp : (s.push).sp = s.sp + 1#8 := rfl
@[simp] theorem State.push_dt : (s.push).dt = s.dt := rfl
@[simp] theorem State.push_st : (s.push).st = s.st := rfl
@[simp] theorem State.push_mem : (s.push).mem = s.mem := rfl
@[simp] theorem State.push_disp : (s.push).disp = s.disp := rfl
@[simp] theorem State.push_key : (s.push).key = s.key := rfl
@[simp] theorem State.push_faultReg : (s.push).faultReg = s.faultReg := rfl
@[simp] theorem State.push_draws : (s.push).draws = s.draws := rfl
@[simp] theorem State.push_readV (r : Nibble) : (s.push).readV r = s.readV r := rfl
@[simp] theorem State.push_readMem (c : Nat) : (s.push).readMem c = s.readMem c := rfl
@[simp] theorem State.push_effAddr (j : Nat) : (s.push).effAddr j = s.effAddr j := rfl
@[simp] theorem State.push_readKey (j : Nibble) : (s.push).readKey j = s.readKey j := rfl

@[simp] theorem State.pop_v : (s.pop).v = s.v := rfl
@[simp] theorem State.pop_i : (s.pop).i = s.i := rfl
@[simp] theorem State.pop_pc : (s.pop).pc = mask12 (s.readStack s.sp) := rfl
@[simp] theorem State.pop_sp : (s.pop).sp = s.sp - 1#8 := rfl
@[simp] theorem State.pop_stack : (s.pop).stack = s.stack := rfl
@[simp] theorem State.pop_dt : (s.pop).dt = s.dt := rfl
@[simp] theorem State.pop_st : (s.pop).st = s.st := rfl
@[simp] theorem State.pop_mem : (s.pop).mem = s.mem := rfl
@[simp] theorem State.pop_disp : (s.pop).disp = s.disp := rfl
@[simp] theorem State.pop_key : (s.pop).key = s.key := rfl
@[simp] theorem State.pop_faultReg : (s.pop).faultReg = s.faultReg := rfl
@[simp] theorem State.pop_draws : (s.pop).draws = s.draws := rfl
@[simp] theorem State.pop_readV (r : Nibble) : (s.pop).readV r = s.readV r := rfl
@[simp] theorem State.pop_readMem (c : Nat) : (s.pop).readMem c = s.readMem c := rfl
@[simp] theorem State.pop_effAddr (j : Nat) : (s.pop).effAddr j = s.effAddr j := rfl
@[simp] theorem State.pop_readKey (j : Nibble) : (s.pop).readKey j = s.readKey j := rfl
@[simp] theorem State.pop_readStack (q : Byte) : (s.pop).readStack q = s.readStack q := rfl

@[simp] theorem State.writeMem_v (a : Nat) (b : Byte) : (s.writeMem a b).v = s.v := rfl
@[simp] theorem State.writeMem_i (a : Nat) (b : Byte) : (s.writeMem a b).i = s.i := rfl
@[simp] theorem State.writeMem_pc (a : Nat) (b : Byte) : (s.writeMem a b).pc = s.pc := rfl
@[simp] theorem State.writeMem_sp (a : Nat) (b : Byte) : (s.writeMem a b).sp = s.sp := rfl
@[simp] theorem State.writeMem_stack (a : Nat) (b : Byte) : (s.writeMem a b).stack = s.stack := rfl
@[simp] theorem State.writeMem_dt (a : Nat) (b : Byte) : (s.writeMem a b).dt = s.dt := rfl
@[simp] theorem State.writeMem_st (a : Nat) (b : Byte) : (s.writeMem a b).st = s.st := rfl
@[simp] theorem State.writeMem_mem (a : Nat) (b : Byte) : (s.writeMem a b).mem = s.mem.write a b := rfl
@[simp] theorem State.writeMem_disp (a : Nat) (b : Byte) : (s.writeMem a b).disp = s.disp := rfl
@[simp] theorem State.writeMem_key (a : Nat) (b : Byte) : (s.writeMem a b).key = s.key := rfl
@[simp] theorem State.writeMem_faultReg (a : Nat) (b : Byte) : (s.writeMem a b).faultReg = s.faultReg := rfl
@[simp] theorem State.writeMem_draws (a : Nat) (b : Byte) : (s.writeMem a b).draws = s.draws := rfl
@[simp] theorem State.writeMem_readV (a : Nat) (b : Byte) (r : Nibble) : (s.writeMem a b).readV r = s.readV r := rfl
@[simp] theorem State.writeMem_effAddr (a : Nat) (b : Byte) (j : Nat) : (s.writeMem a b).effAddr j = s.effAddr j := rfl
@[simp] theorem State.writeMem_readKey (a : Nat) (b : Byte) (j : Nibble) : (s.writeMem a b).readKey j = s.readKey j := rfl
@[simp] theorem State.writeMem_readStack (a : Nat) (b : Byte) (q : Byte) : (s.writeMem a b).readStack q = s.readStack q := rfl

@[simp] theorem State.drawn_v : (s.drawn).v = s.v := rfl
@[simp] theorem State.drawn_i : (s.drawn).i = s.i := rfl
@[simp] theorem State.drawn_pc : (s.drawn).pc = s.pc := rfl
@[simp] theorem State.drawn_sp : (s.drawn).sp = s.sp := rfl
@[simp] theorem State.drawn_stack : (s.drawn).stack = s.stack := rfl
@[simp] theorem State.drawn_dt : (s.drawn).dt = s.dt := rfl
@[simp] theorem State.drawn_st : (s.drawn).st = s.st := rfl
@[simp] theorem State.drawn_mem : (s.drawn).mem = s.mem := rfl
@[simp] theorem State.drawn_disp : (s.drawn).disp = s.disp := rfl
@[simp] theorem State.drawn_key : (s.drawn).key = s.key := rfl
@[simp] theorem State.drawn_faultReg : (s.drawn).faultReg = s.faultReg := rfl
@[simp] theorem State.drawn_draws : (s.drawn).draws = s.draws + 1 := rfl
@[simp] theorem State.drawn_readV (r : Nibble) : (s.drawn).readV r = s.readV r := rfl
@[simp] theorem State.drawn_readMem (c : Nat) : (s.drawn).readMem c = s.readMem c := rfl
@[simp] theorem State.drawn_effAddr (j : Nat) : (s.drawn).effAddr j = s.effAddr j := rfl
@[simp] theorem State.drawn_readKey (j : Nibble) : (s.drawn).readKey j = s.readKey j := rfl
@[simp] theorem State.drawn_readStack (q : Byte) : (s.drawn).readStack q = s.readStack q := rfl

@[simp] theorem State.raise_v (f : FaultCode) : (s.raise f).v = s.v := rfl
@[simp] theorem State.raise_i (f : FaultCode) : (s.raise f).i = s.i := rfl
@[simp] theorem State.raise_pc (f : FaultCode) : (s.raise f).pc = mask12 (s.pc - 2#16) := rfl
@[simp] theorem State.raise_sp (f : FaultCode) : (s.raise f).sp = s.sp := rfl
@[simp] theorem State.raise_stack (f : FaultCode) : (s.raise f).stack = s.stack := rfl
@[simp] theorem State.raise_dt (f : FaultCode) : (s.raise f).dt = s.dt := rfl
@[simp] theorem State.raise_st (f : FaultCode) : (s.raise f).st = s.st := rfl
@[simp] theorem State.raise_mem (f : FaultCode) : (s.raise f).mem = s.mem := rfl
@[simp] theorem State.raise_disp (f : FaultCode) : (s.raise f).disp = s.disp := rfl
@[simp] theorem State.raise_key (f : FaultCode) : (s.raise f).key = s.key := rfl
@[simp] theorem State.raise_faultReg (f : FaultCode) : (s.raise f).faultReg = f := rfl
@[simp] theorem State.raise_draws (f : FaultCode) : (s.raise f).draws = s.draws := rfl
@[simp] theorem State.raise_readV (f : FaultCode) (r : Nibble) : (s.raise f).readV r = s.readV r := rfl
@[simp] theorem State.raise_readMem (f : FaultCode) (c : Nat) : (s.raise f).readMem c = s.readMem c := rfl
@[simp] theorem State.raise_effAddr (f : FaultCode) (j : Nat) : (s.raise f).effAddr j = s.effAddr j := rfl
@[simp] theorem State.raise_readKey (f : FaultCode) (j : Nibble) : (s.raise f).readKey j = s.readKey j := rfl
@[simp] theorem State.raise_readStack (f : FaultCode) (q : Byte) : (s.raise f).readStack q = s.readStack q := rfl

@[simp] theorem State.skipIf_v (c : Bool) : (s.skipIf c).v = s.v := by cases c <;> rfl
@[simp] theorem State.skipIf_i (c : Bool) : (s.skipIf c).i = s.i := by cases c <;> rfl
@[simp] theorem State.skipIf_sp (c : Bool) : (s.skipIf c).sp = s.sp := by cases c <;> rfl
@[simp] theorem State.skipIf_stack (c : Bool) : (s.skipIf c).stack = s.stack := by cases c <;> rfl
@[simp] theorem State.skipIf_dt (c : Bool) : (s.skipIf c).dt = s.dt := by cases c <;> rfl
@[simp] theorem State.skipIf_st (c : Bool) : (s.skipIf c).st = s.st := by cases c <;> rfl
@[simp] theorem State.skipIf_mem (c : Bool) : (s.skipIf c).mem = s.mem := by cases c <;> rfl
@[simp] theorem State.skipIf_disp (c : Bool) : (s.skipIf c).disp = s.disp := by cases c <;> rfl
@[simp] theorem State.skipIf_key (c : Bool) : (s.skipIf c).key = s.key := by cases c <;> rfl
@[simp] theorem State.skipIf_faultReg (c : Bool) : (s.skipIf c).faultReg = s.faultReg := by cases c <;> rfl
@[simp] theorem State.skipIf_draws (c : Bool) : (s.skipIf c).draws = s.draws := by cases c <;> rfl

theorem State.skipIf_pc (c : Bool) : (s.skipIf c).pc = if c then mask12 (s.pc + 2#16) else s.pc := by cases c <;> rfl

@[simp] theorem State.skipIf_readV (c : Bool) (r : Nibble) : (s.skipIf c).readV r = s.readV r := by cases c <;> rfl

@[simp] theorem State.skipIf_readMem (c : Bool) (a : Nat) : (s.skipIf c).readMem a = s.readMem a := by cases c <;> rfl

/-- Reading a register after a write. -/
@[simp] theorem State.readV_writeV (x r : Nibble) (b : Byte) :
    (s.writeV x b).readV r = if r = x then b else s.readV r := by
  simp only [State.readV, State.writeV, Vector.getElem_set, BitVec.toNat_inj, eq_comm]

/-- Reading a register after a result and a flag were written: the flag wins (R12). -/
@[simp] theorem State.readV_writeVFlag (x r : Nibble) (b f : Byte) :
    (s.writeVFlag x b f).readV r = if r = 15#4 then f else if r = x then b else s.readV r := by
  simp only [State.writeVFlag, State.readV_writeV]

/-- Reading a stack slot after a write, for slot numbers that are legal values of `SP`. -/
theorem State.stack_writeStack (k : Byte) (w : Word) (hk : k.toNat < 16) (j : Nat) (hj : j < 16) :
    (s.writeStack k w).stack[j] = if k.toNat = j then w else s.stack[j] := by
  simp only [State.writeStack, Vector.getElem_set, Nat.mod_eq_of_lt hk]

/-- A slot number that is a legal value of `SP` reads its slot. -/
theorem State.readStack_eq (k : Byte) (hk : k.toNat < 16) : s.readStack k = s.stack[k.toNat] := by
  simp only [State.readStack, Nat.mod_eq_of_lt hk]

/-- What the masking of `PC` and `I` does, as a number (R13, R14). -/
@[simp] theorem mask12_toNat (w : Word) : (mask12 w).toNat = w.toNat % 4096 := by
  simp only [mask12, BitVec.toNat_and]
  exact Nat.and_two_pow_sub_one_eq_mod w.toNat 12

theorem mask12_lt (w : Word) : (mask12 w).toNat < 4096 := by
  rw [mask12_toNat]; exact Nat.mod_lt _ (by decide)

/-- A value below 4096 is unchanged by the masking. -/
theorem mask12_of_lt (w : Word) (h : w.toNat < 4096) : mask12 w = w :=
  BitVec.eq_of_toNat_eq (by rw [mask12_toNat, Nat.mod_eq_of_lt h])

@[simp] theorem addrWord_toNat (a : Addr) : (addrWord a).toNat = a.toNat := by
  have := a.isLt
  simp only [addrWord, BitVec.toNat_setWidth]
  omega

@[simp] theorem byteWord_toNat (b : Byte) : (byteWord b).toNat = b.toNat := by
  have := b.isLt
  simp only [byteWord, BitVec.toNat_setWidth]
  omega

/-- Undoing the advance of the fetch on a legal `PC` gives it back (R172). -/
theorem State.pc_retreat_advance (h : s.pc.toNat < 4096) : s.advance.retreat.pc = s.pc := by
  apply BitVec.eq_of_toNat_eq
  simp only [State.retreat_pc, State.advance_pc, mask12_toNat, BitVec.toNat_sub, BitVec.toNat_add, BitVec.toNat_ofNat]
  omega

/-- Advancing and undoing the advance on a legal `PC` leaves the whole state as it was. -/
theorem State.retreat_advance (h : s.pc.toNat < 4096) : s.advance.retreat = s := by
  have := State.pc_retreat_advance s h
  cases s
  simp_all [State.advance, State.retreat, State.setPc]

end Sys2Proof.Machine
end

