-- ==== Sys2Proof/Laws/Frames.lean ====
section
/-!
SUPPORT. The frame of each shared operation: what it leaves unchanged. A claim about an instruction cites these.
-/

namespace Sys2Proof.Machine

/-- A frame, piece by piece. -/
theorem sameBut_iff (ps : List Part) (s t : State) :
    SameBut ps s t ↔
      (Part.i ∈ ps ∨ t.i = s.i) ∧ (Part.pc ∈ ps ∨ t.pc = s.pc) ∧ (Part.sp ∈ ps ∨ t.sp = s.sp) ∧
      (Part.stack ∈ ps ∨ t.stack = s.stack) ∧ (Part.dt ∈ ps ∨ t.dt = s.dt) ∧ (Part.st ∈ ps ∨ t.st = s.st) ∧
      (Part.mem ∈ ps ∨ ∀ a, t.readMem a = s.readMem a) ∧ (Part.disp ∈ ps ∨ t.disp = s.disp) ∧
      (Part.key ∈ ps ∨ t.key = s.key) ∧ (Part.fault ∈ ps ∨ t.faultReg = s.faultReg) ∧
      (Part.draws ∈ ps ∨ t.draws = s.draws) := by
  constructor
  · intro h
    have h' : ∀ p : Part, p ∈ ps ∨ p.Same s t := fun p => (Decidable.em (p ∈ ps)).imp id (h p)
    exact ⟨h' .i, h' .pc, h' .sp, h' .stack, h' .dt, h' .st, h' .mem, h' .disp, h' .key, h' .fault, h' .draws⟩
  · rintro ⟨h1, h2, h3, h4, h5, h6, h7, h8, h9, h10, h11⟩ p hp
    cases p
    · exact h1.resolve_left hp
    · exact h2.resolve_left hp
    · exact h3.resolve_left hp
    · exact h4.resolve_left hp
    · exact h5.resolve_left hp
    · exact h6.resolve_left hp
    · exact h7.resolve_left hp
    · exact h8.resolve_left hp
    · exact h9.resolve_left hp
    · exact h10.resolve_left hp
    · exact h11.resolve_left hp

/-- A state that agrees in every listed piece meets every frame. -/
theorem SameBut.refl (ps : List Part) (s : State) : SameBut ps s s := by
  rw [sameBut_iff]
  simp

/-- Frames widen. -/
theorem SameBut.mono {ps qs : List Part} {s t : State} (h : SameBut ps s t) (hq : ∀ p ∈ ps, p ∈ qs) : SameBut qs s t :=
  fun p hp => h p fun hps => hp (hq p hps)

/-- A piece that is the same may be taken as an equation. -/
theorem Part.Same.trans {p : Part} {s t u : State} (h : p.Same s t) (h' : p.Same t u) : p.Same s u := by
  cases p <;> simp_all [Part.Same]

/-- Frames compose. -/
theorem SameBut.trans {ps : List Part} {s t u : State} (h : SameBut ps s t) (h' : SameBut ps t u) : SameBut ps s u :=
  fun p hp => (h p hp).trans (h' p hp)

theorem SameRegsBut.refl (xs : List Nibble) (s : State) : SameRegsBut xs s s := fun _ _ => rfl

theorem SameRegsBut.mono {xs ys : List Nibble} {s t : State} (h : SameRegsBut xs s t) (hy : ∀ x ∈ xs, x ∈ ys) :
    SameRegsBut ys s t :=
  fun r hr => h r fun hx => hr (hy r hx)

theorem SameRegsBut.trans {xs : List Nibble} {s t u : State} (h : SameRegsBut xs s t) (h' : SameRegsBut xs t u) :
    SameRegsBut xs s u :=
  fun r hr => (h' r hr).trans (h r hr)

/-- States with the same register array have the same registers. -/
theorem sameRegs_of_v {s t : State} (h : t.v = s.v) (xs : List Nibble) : SameRegsBut xs s t := by
  intro r _
  simp only [State.readV, h]

/-- A register write changes nothing but that register. -/
theorem frame_writeV (s : State) (x : Nibble) (b : Byte) :
    SameRegsBut [x] s (s.writeV x b) ∧ SameBut [] s (s.writeV x b) := by
  refine ⟨fun r hr => ?_, ?_⟩
  · rw [State.readV_writeV, if_neg (by simpa using hr)]
  · rw [sameBut_iff]
    simp [State.readMem]

/-- A result and a flag change nothing but their two registers. -/
theorem frame_writeVFlag (s : State) (x : Nibble) (b f : Byte) :
    SameRegsBut [x, 15#4] s (s.writeVFlag x b f) ∧ SameBut [] s (s.writeVFlag x b f) := by
  refine ⟨fun r hr => ?_, ?_⟩
  · simp only [List.mem_cons, List.not_mem_nil, or_false, not_or] at hr
    rw [State.readV_writeVFlag, if_neg hr.2, if_neg hr.1]
  · rw [sameBut_iff]
    simp [State.readMem]

/-- A write of `PC` changes nothing else. -/
theorem frame_setPc (s : State) (w : Word) : SameRegsBut [] s (s.setPc w) ∧ SameBut [.pc] s (s.setPc w) :=
  ⟨sameRegs_of_v rfl _, by rw [sameBut_iff]; simp⟩

/-- The advance changes nothing but `PC`. -/
theorem frame_advance (s : State) : SameRegsBut [] s s.advance ∧ SameBut [.pc] s s.advance := frame_setPc s _

/-- The retreat changes nothing but `PC`. -/
theorem frame_retreat (s : State) : SameRegsBut [] s s.retreat ∧ SameBut [.pc] s s.retreat := frame_setPc s _

/-- A skip changes nothing but `PC`, and `PC` only when it is taken. -/
theorem frame_skipIf (s : State) (c : Bool) : SameRegsBut [] s (s.skipIf c) ∧ SameBut [.pc] s (s.skipIf c) := by
  cases c
  · exact ⟨SameRegsBut.refl _ _, SameBut.refl _ _⟩
  · exact frame_advance s

/-- A write of `I` changes nothing else. -/
theorem frame_setI (s : State) (w : Word) : SameRegsBut [] s (s.setI w) ∧ SameBut [.i] s (s.setI w) :=
  ⟨sameRegs_of_v rfl _, by rw [sameBut_iff]; simp⟩

/-- Fault entry changes nothing but `PC` and FAULT (R172). -/
theorem frame_raise (s : State) (f : FaultCode) :
    SameRegsBut [] s (s.raise f) ∧ SameBut [.pc, .fault] s (s.raise f) :=
  ⟨sameRegs_of_v rfl _, by rw [sameBut_iff]; simp⟩

/-- A push and the jump after it change nothing but `PC`, `SP` and the stack (R102). -/
theorem frame_push (s : State) (w : Word) :
    SameRegsBut [] s (s.push.setPc w) ∧ SameBut [.pc, .sp, .stack] s (s.push.setPc w) :=
  ⟨sameRegs_of_v rfl _, by rw [sameBut_iff]; simp⟩

/-- A pop changes nothing but `PC` and `SP` (R100). -/
theorem frame_pop (s : State) : SameRegsBut [] s s.pop ∧ SameBut [.pc, .sp] s s.pop :=
  ⟨sameRegs_of_v rfl _, by rw [sameBut_iff]; simp⟩

/-- A replacement of the memory changes nothing else. -/
theorem frame_mem (s : State) (m : Memory) :
    SameRegsBut [] s { s with mem := m } ∧ SameBut [.mem] s { s with mem := m } :=
  ⟨sameRegs_of_v rfl _, by rw [sameBut_iff]; simp⟩

/-- A draw changes nothing but the count of draws. -/
theorem frame_drawn (s : State) : SameRegsBut [] s s.drawn ∧ SameBut [.draws] s s.drawn :=
  ⟨sameRegs_of_v rfl _, by rw [sameBut_iff]; simp⟩

end Sys2Proof.Machine
end

