-- ==== Sys2Proof/Laws/Ops.lean ====
section
/-!
SUPPORT. One law per shared operation: everything it does to what it changes.
-/

namespace Sys2Proof.Machine

/-- The advance, as a number (R15). -/
theorem State.advance_pc_toNat (s : State) : s.advance.pc.toNat = (s.pc.toNat + 2) % 4096 := by
  simp only [State.advance_pc, mask12_toNat, BitVec.toNat_add, BitVec.toNat_ofNat]
  omega

/-- The retreat, as a number (R163, R172). -/
theorem State.retreat_pc_toNat (s : State) : s.retreat.pc.toNat = (s.pc.toNat + 4094) % 4096 := by
  have := s.pc.isLt
  simp only [State.retreat_pc, mask12_toNat, BitVec.toNat_sub, BitVec.toNat_ofNat]
  omega

/-- Fault entry sets `PC` back by 2 (R172). -/
theorem State.raise_pc_toNat (s : State) (f : FaultCode) : (s.raise f).pc.toNat = (s.pc.toNat + 4094) % 4096 :=
  s.retreat_pc_toNat

/-- Effective addresses are below 4096 (R44, R146). -/
theorem State.effAddr_lt (s : State) (k : Nat) : s.effAddr k < 4096 := Nat.mod_lt _ (by decide)

/-- Effective addresses of different offsets below 4096 differ. -/
theorem State.effAddr_inj (s : State) {j k : Nat} (hj : j < 4096) (hk : k < 4096) (h : s.effAddr j = s.effAddr k) :
    j = k := by
  simp only [State.effAddr] at h
  omega

/-- What a push leaves on the stack (R102). -/
theorem State.push_stack (s : State) (h : s.sp.toNat < 15) (k : Nat) (hk : k < 16) :
    s.push.stack[k] = if k = s.sp.toNat + 1 then s.pc else s.stack[k] := by
  have hsp : (s.sp + 1#8).toNat = s.sp.toNat + 1 := by
    rw [BitVec.toNat_add, BitVec.toNat_ofNat]; omega
  have := State.stack_writeStack ({ s with sp := s.sp + 1#8 } : State) (s.sp + 1#8) s.pc (by omega) k hk
  rw [hsp] at this
  simp only [State.push, this, eq_comm]

/-- The word of two bytes, as a number: the first is the high byte (R43). -/
theorem wordOfBytes_toNat (hi lo : Byte) : (wordOfBytes hi lo).toNat = 256 * hi.toNat + lo.toNat := by
  have := lo.isLt
  rw [wordOfBytes, BitVec.toNat_append, ← Nat.shiftLeft_add_eq_or_of_lt lo.isLt, Nat.shiftLeft_eq]
  omega

/-- The two bytes of a word make the word again (R43, R80). -/
theorem wordOfBytes_bytesOfWord (w : Word) : wordOfBytes ((w >>> 8).setWidth 8) (w.setWidth 8) = w := by
  apply BitVec.eq_of_toNat_eq
  have := w.isLt
  rw [wordOfBytes_toNat, BitVec.toNat_setWidth, BitVec.toNat_setWidth, BitVec.toNat_ushiftRight,
    Nat.shiftRight_eq_div_pow]
  omega

/-- A word placed at `PC` is what the next fetch reads (R15, R43). -/
theorem State.fetch_placeWord (s : State) (h : s.mem.wf = true) (w : Word) : (s.placeWord w).fetch = w := by
  have e0 := Memory.read_writeList h (a := s.pc.toNat) (bs := bytesOfWord w) (by decide : (2 : Nat) ≤ 4096)
    (k := 0) (by simp [bytesOfWord])
  have e1 := Memory.read_writeList h (a := s.pc.toNat) (bs := bytesOfWord w) (by decide : (2 : Nat) ≤ 4096)
    (k := 1) (by simp [bytesOfWord])
  simp only [Nat.add_zero] at e0
  simp only [State.fetch, State.readMem, State.placeWord, e0, e1]
  exact wordOfBytes_bytesOfWord w

/-- The memory after a block store, form (R144). -/
theorem State.storeRange_wf (s : State) (h : s.mem.wf = true) (n : Nat) : (s.storeRange n).wf = true := by
  induction n with
  | zero => exact h
  | succ n ih => exact Memory.wf_write ih _ _

/-- The memory after a block store, outside the cells stored to (R144). -/
theorem State.storeRange_read_ne (s : State) {n a : Nat} (ha : ∀ k, k < n → a % 4096 ≠ s.effAddr k) :
    (s.storeRange n).read a = s.readMem a := by
  induction n with
  | zero => rfl
  | succ n ih =>
    rw [State.storeRange, Memory.read_write_ne _ ?_, ih fun k hk => ha k (by omega)]
    rw [Nat.mod_eq_of_lt (s.effAddr_lt n)]
    exact ha n (by omega)

/-- The memory after a block store, at the cells stored to (R144). -/
theorem State.storeRange_read (s : State) (h : s.mem.wf = true) {n k : Nat} (hn : n ≤ 4096) (hk : k < n) :
    (s.storeRange n).read (s.effAddr k) = s.readV (BitVec.ofNat 4 k) := by
  induction n with
  | zero => omega
  | succ n ih =>
    rw [State.storeRange, Memory.read_write (s.storeRange_wf h n)]
    simp only [Nat.mod_eq_of_lt (s.effAddr_lt _)]
    split
    · rename_i heq
      rw [s.effAddr_inj (by omega) (by omega) heq]
    · rename_i hne
      have : k ≠ n := fun e => hne (e ▸ rfl)
      exact ih (by omega) (by omega)

/-- The registers after a block load (R145). -/
theorem State.loadRange_readV (s : State) {n : Nat} (hn : n ≤ 16) (r : Nibble) :
    (s.loadRange n).readV r = if r.toNat < n then s.readMem (s.effAddr r.toNat) else s.readV r := by
  induction n with
  | zero => simp [State.loadRange]
  | succ n ih =>
    have hr := r.isLt
    rw [State.loadRange, State.readV_writeV, ih (by omega)]
    have hiff : r = BitVec.ofNat 4 n ↔ r.toNat = n := by
      rw [← BitVec.toNat_inj, BitVec.toNat_ofNat, Nat.mod_eq_of_lt (by omega)]
    by_cases h : r.toNat = n
    · rw [if_pos (hiff.2 h), if_pos (by omega), h]
    · rw [if_neg (fun e => h (hiff.1 e))]
      by_cases h' : r.toNat < n
      · rw [if_pos h', if_pos (by omega)]
      · rw [if_neg h', if_neg (by omega)]

/-- A block load changes nothing but registers (R145). -/
theorem State.loadRange_eq (s : State) (n : Nat) : s.loadRange n = { s with v := (s.loadRange n).v } := by
  induction n with
  | zero => rfl
  | succ n ih =>
    rw [State.loadRange, ih]
    rfl

/-- Reading a row after a write of a row of the screen. -/
theorem readRow_writeRow (d : Vector Row 32) {r : Nat} (hr : r < 32) (w : Row) (q : Nat) :
    readRow (writeRow d r w) q = if q = r then w else readRow d q := by
  simp only [readRow, writeRow, Vector.getElem?_setIfInBounds]
  by_cases h : r = q
  · subst h; simp [hr]
  · simp [h, Ne.symm h]

/-- Two displays with the same rows are the same. -/
theorem disp_ext {d e : Vector Row 32} (h : ∀ r, r < 32 → readRow d r = readRow e r) : d = e := by
  ext r hr k hk
  have := h r hr
  simp only [readRow, Vector.getElem?_eq_getElem hr, Option.getD_some] at this
  rw [this]

/-- The mask a sprite leaves on a display row, 0 where no sprite row falls (R151). -/
def spriteRow (s : State) (x0 y0 n r : Nat) : Row :=
  if y0 ≤ r ∧ r - y0 < n then spriteMask (s.readMem (s.effAddr (r - y0))) x0 else 0

/-- The rows after a sprite is drawn: each row of the screen with its sprite mask XORed in (R151). -/
theorem State.drawSprite_row (s : State) (x0 y0 n : Nat) {r : Nat} (hr : r < 32) :
    readRow (s.drawSprite x0 y0 n).1 r = readRow s.disp r ^^^ spriteRow s x0 y0 n r := by
  induction n with
  | zero => simp [State.drawSprite, spriteRow]
  | succ n ih =>
    simp only [State.drawSprite, drawRow]
    by_cases h : y0 + n ≤ 31
    · rw [if_pos h]
      simp only [readRow_writeRow _ (show y0 + n < 32 by omega)]
      by_cases e : r = y0 + n
      · subst e
        rw [if_pos rfl, ih]
        simp [spriteRow]
      · rw [if_neg e, ih]
        congr 1
        simp only [spriteRow]
        split <;> split <;> first | rfl | omega
    · rw [if_neg h, ih]
      congr 1
      simp only [spriteRow]
      split <;> split <;> first | rfl | omega

/-- Whether a sprite collides: some row of the screen and its sprite mask have a lit bit in common (R151). -/
theorem State.drawSprite_collision (s : State) (x0 y0 n : Nat) :
    (s.drawSprite x0 y0 n).2 = true ↔ ∃ r, r < 32 ∧ readRow s.disp r &&& spriteRow s x0 y0 n r ≠ 0 := by
  induction n with
  | zero => simp [State.drawSprite, spriteRow]
  | succ n ih =>
    have hstep : ∀ r, r ≠ y0 + n → spriteRow s x0 y0 (n + 1) r = spriteRow s x0 y0 n r := by
      intro r e
      simp only [spriteRow]
      split <;> split <;> first | rfl | omega
    simp only [State.drawSprite, drawRow]
    by_cases h : y0 + n ≤ 31
    · have hrow : readRow (s.drawSprite x0 y0 n).1 (y0 + n) = readRow s.disp (y0 + n) := by
        rw [s.drawSprite_row x0 y0 n (by omega)]
        simp [spriteRow]
      have hm : spriteRow s x0 y0 (n + 1) (y0 + n) = spriteMask (s.readMem (s.effAddr n)) x0 := by
        simp [spriteRow]
      rw [if_pos h]
      simp only [Bool.or_eq_true, ih, hrow, collides, decide_eq_true_eq]
      constructor
      · rintro (⟨r, hr, hne⟩ | hc)
        · refine ⟨r, hr, ?_⟩
          rw [hstep r ?_]
          · exact hne
          · rintro rfl
            exact hne (by simp [spriteRow])
        · exact ⟨y0 + n, by omega, by rw [hm]; exact hc⟩
      · rintro ⟨r, hr, hne⟩
        by_cases e : r = y0 + n
        · subst e
          exact Or.inr (by rw [hm] at hne; exact hne)
        · exact Or.inl ⟨r, hr, by rw [hstep r e] at hne; exact hne⟩
    · rw [if_neg h, ih]
      constructor
      · rintro ⟨r, hr, hne⟩
        exact ⟨r, hr, by rw [hstep r (by omega)]; exact hne⟩
      · rintro ⟨r, hr, hne⟩
        exact ⟨r, hr, by rw [hstep r (by omega)] at hne; exact hne⟩

/-- The least pressed key (R163). -/
theorem State.leastKey_eq_some (s : State) (k : Nat) :
    s.leastKey = some k ↔ ∃ h : k < 16, s.key[k] = true ∧ ∀ j (hj : j < k), s.key[j] = false := by
  simp only [State.leastKey, List.findIdx?_eq_some_iff_getElem, Vector.length_toList, Vector.getElem_toList, id_eq,
    Bool.not_eq_true]

/-- No key is pressed (R163). -/
theorem State.leastKey_eq_none (s : State) : s.leastKey = none ↔ ∀ j (hj : j < 16), s.key[j] = false := by
  simp only [State.leastKey, List.findIdx?_eq_none_iff, id_eq]
  constructor
  · intro h j hj
    exact h _ (by simp)
  · intro h x hx
    obtain ⟨j, hj, rfl⟩ := List.mem_iff_getElem.1 hx
    simpa using h j (by simpa using hj)

/-- A write of `PC`, as a number (R14). -/
theorem State.setPc_pc_toNat (s : State) (w : Word) : (s.setPc w).pc.toNat = w.toNat % 4096 := by
  rw [State.setPc_pc, mask12_toNat]

/-- A flag byte is 0 or 1 (R11). -/
theorem flagByte_cases (c : Bool) : flagByte c = 0#8 ∨ flagByte c = 1#8 := by cases c <;> decide

/-- The bit a right shift moves out, as a number (R128). -/
theorem lowBit_toNat (b : Byte) : (lowBit b).toNat = b.toNat % 2 := by
  rw [lowBit, BitVec.toNat_and, show (1#8).toNat = 2 ^ 1 - 1 from rfl, Nat.and_two_pow_sub_one_eq_mod, pow_one]

/-- The bit a left shift moves out, as a number (R130). -/
theorem highBit_toNat (b : Byte) : (highBit b).toNat = b.toNat / 128 := by
  have := b.isLt
  rw [highBit, BitVec.toNat_and, show (1#8).toNat = 2 ^ 1 - 1 from rfl, Nat.and_two_pow_sub_one_eq_mod, pow_one,
    BitVec.toNat_ushiftRight, Nat.shiftRight_eq_div_pow]
  omega

/-- The key a register names, as a number (R160). -/
theorem State.keyIndex_toNat (s : State) (x : Nibble) : (s.keyIndex x).toNat = (s.readV x).toNat % 16 := by
  have := (s.readV x).isLt
  rw [State.keyIndex, BitVec.toNat_setWidth, BitVec.toNat_and, show (0x0F#8).toNat = 2 ^ 4 - 1 from rfl,
    Nat.and_two_pow_sub_one_eq_mod]
  omega

/-- The pixels of a sprite byte on a display row: bit 7 at the starting column, clipped at the right edge (R151). -/
theorem spriteMask_getLsbD (b : Byte) {x0 c : Nat} (hx : x0 < 64) (hc : c < 64) :
    (spriteMask b x0).getLsbD (63 - c) = (decide (x0 ≤ c) && decide (c - x0 < 8) && b.getLsbD (7 - (c - x0))) := by
  simp only [spriteMask, BitVec.getLsbD_ushiftRight, BitVec.getLsbD_shiftLeft, BitVec.getLsbD_setWidth]
  by_cases h1 : x0 ≤ c
  · by_cases h2 : c - x0 < 8
    · rw [show x0 + (63 - c) - 56 = 7 - (c - x0) by omega, decide_eq_true (show x0 + (63 - c) < 64 by omega),
        decide_eq_false (show ¬ x0 + (63 - c) < 56 by omega), decide_eq_true (show 7 - (c - x0) < 64 by omega),
        decide_eq_true h1, decide_eq_true h2]
      simp
    · rw [decide_eq_true (show x0 + (63 - c) < 56 by omega), decide_eq_false h2]
      simp
  · rw [decide_eq_false (show ¬ x0 + (63 - c) < 64 by omega), decide_eq_false h1]
    simp

/-- A ROM image has two bytes for each word (R80). -/
theorem serialize_length (ws : List Word) : (serialize ws).length = 2 * ws.length := by
  induction ws with
  | nil => rfl
  | cons w ws ih =>
    simp only [serialize, bytesOfWord, List.length_append, List.length_cons, List.length_nil, ih]
    omega

/-- The state after reset with any `FONT` has its memory in canonical form. -/
theorem resetWithFont_wf (font : Font) : (resetWithFont font).mem.wf = true :=
  Memory.wf_writeList rfl 0 font.toList

/-- A state's fetch as two bytes: the high one (R43). -/
theorem State.fetch_div (s : State) : s.fetch.toNat / 256 = (s.readMem s.pc.toNat).toNat := by
  have := (s.readMem (s.pc.toNat + 1)).isLt
  rw [State.fetch, wordOfBytes_toNat]
  omega

/-- A state's fetch as two bytes: the low one (R43). -/
theorem State.fetch_mod (s : State) : s.fetch.toNat % 256 = (s.readMem (s.pc.toNat + 1)).toNat := by
  have := (s.readMem (s.pc.toNat + 1)).isLt
  rw [State.fetch, wordOfBytes_toNat]
  omega

end Sys2Proof.Machine
end

