-- ==== Sys2Proof/Laws/PerInstr.lean ====
section
/-!
SUPPORT. Two families of statements about every instruction as syntax, one lemma per constructor.
-/

namespace Sys2Proof.Laws

/-- An operand list fits when its head fits its field and the rest fits. -/
theorem operandsFit_cons (f : Field) (fs : List Field) (v : Nat) (vs : List Nat) :
    operandsFit (f :: fs) (v :: vs) = true ↔ v < f.size ∧ operandsFit fs vs = true := by
  simp only [operandsFit, Bool.and_eq_true, decide_eq_true_eq]

/-- The bits of the word a field can set (R61). -/
def fieldMask : Field → Word
  | .addr => 0x0FFF#16
  | .x => 0x0F00#16
  | .y => 0x00F0#16
  | .byte => 0x00FF#16
  | .nibble => 0x000F#16
  | .ignore => 0x0000#16

/-- A field sets no bit outside its mask (R76). -/
theorem encodeField_masked (f : Field) (v : Nat) : ∃ w, encodeField f v = w &&& fieldMask f := by
  cases f
  · exact ⟨_, rfl⟩
  · exact ⟨_, rfl⟩
  · exact ⟨_, rfl⟩
  · exact ⟨_, rfl⟩
  · exact ⟨_, rfl⟩
  · exact ⟨0#16, rfl⟩

/-- Operands of fields that a mask does not see change nothing under it. -/
theorem encodeOperands_and {m : Word} {fs : List Field} (h : ∀ f ∈ fs, fieldMask f &&& m = 0#16) (acc : Word)
    (vs : List Nat) : encodeOperands acc fs vs &&& m = acc &&& m := by
  induction fs generalizing acc vs with
  | nil => rfl
  | cons f fs ih =>
    cases vs with
    | nil => rfl
    | cons v vs =>
      obtain ⟨w, hw⟩ := encodeField_masked f v
      rw [encodeOperands, ih (fun g hg => h g (List.mem_cons_of_mem f hg)), hw, BitVec.and_or_distrib_right,
        BitVec.and_assoc, h f List.mem_cons_self, BitVec.and_zero, BitVec.or_zero]

/-- In no row of R65 do the operand fields reach under the row's mask. -/
theorem fields_outside_mask (n : Name) : ∀ f ∈ n.fields, fieldMask f &&& n.mask = 0#16 := by
  cases n <;> decide

/-- In every row of R65 the base bits lie under the row's mask. -/
theorem base_under_mask (n : Name) : n.base &&& n.mask = n.base := by
  cases n <;> decide

/-- Whatever the operands, the encoding has the base bits of its row under the row's mask. -/
theorem encode_and_mask (a : AsmInstr) : a.encode &&& a.name.mask = a.name.base :=
  (encodeOperands_and (fields_outside_mask a.name) _ _).trans (base_under_mask a.name)

/-- The operand form of an instruction has one operand per field, each within its field (R71, R84). -/
def OperandForm.Statement (i : Instr) : Prop := i.wellFormed = true

/-- The canonical word of an instruction has the base bits of its row under the row's mask (R65). -/
def BaseBits.Statement (i : Instr) : Prop := encode i &&& i.name.mask = i.name.base

theorem OperandForm.cls : OperandForm.Statement .cls :=
  rfl

theorem OperandForm.ret : OperandForm.Statement .ret :=
  rfl

theorem OperandForm.jp (addr : Addr) : OperandForm.Statement (.jp addr) :=
  (operandsFit_cons .addr _ _ _).2 ⟨addr.isLt, rfl⟩

theorem OperandForm.call (addr : Addr) : OperandForm.Statement (.call addr) :=
  (operandsFit_cons .addr _ _ _).2 ⟨addr.isLt, rfl⟩

theorem OperandForm.seByte (x : Nibble) (kk : Byte) : OperandForm.Statement (.seByte x kk) :=
  (operandsFit_cons .x _ _ _).2 ⟨x.isLt, (operandsFit_cons .byte _ _ _).2 ⟨kk.isLt, rfl⟩⟩

theorem OperandForm.sneByte (x : Nibble) (kk : Byte) : OperandForm.Statement (.sneByte x kk) :=
  (operandsFit_cons .x _ _ _).2 ⟨x.isLt, (operandsFit_cons .byte _ _ _).2 ⟨kk.isLt, rfl⟩⟩

theorem OperandForm.seReg (x : Nibble) (y : Nibble) : OperandForm.Statement (.seReg x y) :=
  (operandsFit_cons .x _ _ _).2 ⟨x.isLt, (operandsFit_cons .y _ _ _).2 ⟨y.isLt, rfl⟩⟩

theorem OperandForm.ldByte (x : Nibble) (kk : Byte) : OperandForm.Statement (.ldByte x kk) :=
  (operandsFit_cons .x _ _ _).2 ⟨x.isLt, (operandsFit_cons .byte _ _ _).2 ⟨kk.isLt, rfl⟩⟩

theorem OperandForm.addByte (x : Nibble) (kk : Byte) : OperandForm.Statement (.addByte x kk) :=
  (operandsFit_cons .x _ _ _).2 ⟨x.isLt, (operandsFit_cons .byte _ _ _).2 ⟨kk.isLt, rfl⟩⟩

theorem OperandForm.ldReg (x : Nibble) (y : Nibble) : OperandForm.Statement (.ldReg x y) :=
  (operandsFit_cons .x _ _ _).2 ⟨x.isLt, (operandsFit_cons .y _ _ _).2 ⟨y.isLt, rfl⟩⟩

theorem OperandForm.orReg (x : Nibble) (y : Nibble) : OperandForm.Statement (.orReg x y) :=
  (operandsFit_cons .x _ _ _).2 ⟨x.isLt, (operandsFit_cons .y _ _ _).2 ⟨y.isLt, rfl⟩⟩

theorem OperandForm.andReg (x : Nibble) (y : Nibble) : OperandForm.Statement (.andReg x y) :=
  (operandsFit_cons .x _ _ _).2 ⟨x.isLt, (operandsFit_cons .y _ _ _).2 ⟨y.isLt, rfl⟩⟩

theorem OperandForm.xorReg (x : Nibble) (y : Nibble) : OperandForm.Statement (.xorReg x y) :=
  (operandsFit_cons .x _ _ _).2 ⟨x.isLt, (operandsFit_cons .y _ _ _).2 ⟨y.isLt, rfl⟩⟩

theorem OperandForm.addReg (x : Nibble) (y : Nibble) : OperandForm.Statement (.addReg x y) :=
  (operandsFit_cons .x _ _ _).2 ⟨x.isLt, (operandsFit_cons .y _ _ _).2 ⟨y.isLt, rfl⟩⟩

theorem OperandForm.subReg (x : Nibble) (y : Nibble) : OperandForm.Statement (.subReg x y) :=
  (operandsFit_cons .x _ _ _).2 ⟨x.isLt, (operandsFit_cons .y _ _ _).2 ⟨y.isLt, rfl⟩⟩

theorem OperandForm.shr (x : Nibble) (y : Nibble) : OperandForm.Statement (.shr x y) :=
  (operandsFit_cons .x _ _ _).2 ⟨x.isLt, (operandsFit_cons .y _ _ _).2 ⟨y.isLt, rfl⟩⟩

theorem OperandForm.subn (x : Nibble) (y : Nibble) : OperandForm.Statement (.subn x y) :=
  (operandsFit_cons .x _ _ _).2 ⟨x.isLt, (operandsFit_cons .y _ _ _).2 ⟨y.isLt, rfl⟩⟩

theorem OperandForm.shl (x : Nibble) (y : Nibble) : OperandForm.Statement (.shl x y) :=
  (operandsFit_cons .x _ _ _).2 ⟨x.isLt, (operandsFit_cons .y _ _ _).2 ⟨y.isLt, rfl⟩⟩

theorem OperandForm.sneReg (x : Nibble) (y : Nibble) : OperandForm.Statement (.sneReg x y) :=
  (operandsFit_cons .x _ _ _).2 ⟨x.isLt, (operandsFit_cons .y _ _ _).2 ⟨y.isLt, rfl⟩⟩

theorem OperandForm.ldI (addr : Addr) : OperandForm.Statement (.ldI addr) :=
  (operandsFit_cons .addr _ _ _).2 ⟨addr.isLt, rfl⟩

theorem OperandForm.jpV0 (addr : Addr) : OperandForm.Statement (.jpV0 addr) :=
  (operandsFit_cons .ignore _ _ _).2 ⟨Nat.zero_lt_one, (operandsFit_cons .addr _ _ _).2 ⟨addr.isLt, rfl⟩⟩

theorem OperandForm.rnd (x : Nibble) (kk : Byte) : OperandForm.Statement (.rnd x kk) :=
  (operandsFit_cons .x _ _ _).2 ⟨x.isLt, (operandsFit_cons .byte _ _ _).2 ⟨kk.isLt, rfl⟩⟩

theorem OperandForm.drw (x : Nibble) (y : Nibble) (n : Nibble) : OperandForm.Statement (.drw x y n) :=
  (operandsFit_cons .x _ _ _).2 ⟨x.isLt, (operandsFit_cons .y _ _ _).2 ⟨y.isLt, (operandsFit_cons .nibble _ _ _).2 ⟨n.isLt, rfl⟩⟩⟩

theorem OperandForm.skp (x : Nibble) : OperandForm.Statement (.skp x) :=
  (operandsFit_cons .x _ _ _).2 ⟨x.isLt, rfl⟩

theorem OperandForm.sknp (x : Nibble) : OperandForm.Statement (.sknp x) :=
  (operandsFit_cons .x _ _ _).2 ⟨x.isLt, rfl⟩

theorem OperandForm.ldVxDT (x : Nibble) : OperandForm.Statement (.ldVxDT x) :=
  (operandsFit_cons .x _ _ _).2 ⟨x.isLt, rfl⟩

theorem OperandForm.ldVxK (x : Nibble) : OperandForm.Statement (.ldVxK x) :=
  (operandsFit_cons .x _ _ _).2 ⟨x.isLt, rfl⟩

theorem OperandForm.ldDTVx (x : Nibble) : OperandForm.Statement (.ldDTVx x) :=
  (operandsFit_cons .x _ _ _).2 ⟨x.isLt, rfl⟩

theorem OperandForm.ldSTVx (x : Nibble) : OperandForm.Statement (.ldSTVx x) :=
  (operandsFit_cons .x _ _ _).2 ⟨x.isLt, rfl⟩

theorem OperandForm.addIVx (x : Nibble) : OperandForm.Statement (.addIVx x) :=
  (operandsFit_cons .x _ _ _).2 ⟨x.isLt, rfl⟩

theorem OperandForm.ldF (x : Nibble) : OperandForm.Statement (.ldF x) :=
  (operandsFit_cons .x _ _ _).2 ⟨x.isLt, rfl⟩

theorem OperandForm.ldB (x : Nibble) : OperandForm.Statement (.ldB x) :=
  (operandsFit_cons .x _ _ _).2 ⟨x.isLt, rfl⟩

theorem OperandForm.ldMemVx (x : Nibble) : OperandForm.Statement (.ldMemVx x) :=
  (operandsFit_cons .x _ _ _).2 ⟨x.isLt, rfl⟩

theorem OperandForm.ldVxMem (x : Nibble) : OperandForm.Statement (.ldVxMem x) :=
  (operandsFit_cons .x _ _ _).2 ⟨x.isLt, rfl⟩

theorem BaseBits.cls : BaseBits.Statement .cls :=
  encode_and_mask _

theorem BaseBits.ret : BaseBits.Statement .ret :=
  encode_and_mask _

theorem BaseBits.jp (addr : Addr) : BaseBits.Statement (.jp addr) :=
  encode_and_mask _

theorem BaseBits.call (addr : Addr) : BaseBits.Statement (.call addr) :=
  encode_and_mask _

theorem BaseBits.seByte (x : Nibble) (kk : Byte) : BaseBits.Statement (.seByte x kk) :=
  encode_and_mask _

theorem BaseBits.sneByte (x : Nibble) (kk : Byte) : BaseBits.Statement (.sneByte x kk) :=
  encode_and_mask _

theorem BaseBits.seReg (x : Nibble) (y : Nibble) : BaseBits.Statement (.seReg x y) :=
  encode_and_mask _

theorem BaseBits.ldByte (x : Nibble) (kk : Byte) : BaseBits.Statement (.ldByte x kk) :=
  encode_and_mask _

theorem BaseBits.addByte (x : Nibble) (kk : Byte) : BaseBits.Statement (.addByte x kk) :=
  encode_and_mask _

theorem BaseBits.ldReg (x : Nibble) (y : Nibble) : BaseBits.Statement (.ldReg x y) :=
  encode_and_mask _

theorem BaseBits.orReg (x : Nibble) (y : Nibble) : BaseBits.Statement (.orReg x y) :=
  encode_and_mask _

theorem BaseBits.andReg (x : Nibble) (y : Nibble) : BaseBits.Statement (.andReg x y) :=
  encode_and_mask _

theorem BaseBits.xorReg (x : Nibble) (y : Nibble) : BaseBits.Statement (.xorReg x y) :=
  encode_and_mask _

theorem BaseBits.addReg (x : Nibble) (y : Nibble) : BaseBits.Statement (.addReg x y) :=
  encode_and_mask _

theorem BaseBits.subReg (x : Nibble) (y : Nibble) : BaseBits.Statement (.subReg x y) :=
  encode_and_mask _

theorem BaseBits.shr (x : Nibble) (y : Nibble) : BaseBits.Statement (.shr x y) :=
  encode_and_mask _

theorem BaseBits.subn (x : Nibble) (y : Nibble) : BaseBits.Statement (.subn x y) :=
  encode_and_mask _

theorem BaseBits.shl (x : Nibble) (y : Nibble) : BaseBits.Statement (.shl x y) :=
  encode_and_mask _

theorem BaseBits.sneReg (x : Nibble) (y : Nibble) : BaseBits.Statement (.sneReg x y) :=
  encode_and_mask _

theorem BaseBits.ldI (addr : Addr) : BaseBits.Statement (.ldI addr) :=
  encode_and_mask _

theorem BaseBits.jpV0 (addr : Addr) : BaseBits.Statement (.jpV0 addr) :=
  encode_and_mask _

theorem BaseBits.rnd (x : Nibble) (kk : Byte) : BaseBits.Statement (.rnd x kk) :=
  encode_and_mask _

theorem BaseBits.drw (x : Nibble) (y : Nibble) (n : Nibble) : BaseBits.Statement (.drw x y n) :=
  encode_and_mask _

theorem BaseBits.skp (x : Nibble) : BaseBits.Statement (.skp x) :=
  encode_and_mask _

theorem BaseBits.sknp (x : Nibble) : BaseBits.Statement (.sknp x) :=
  encode_and_mask _

theorem BaseBits.ldVxDT (x : Nibble) : BaseBits.Statement (.ldVxDT x) :=
  encode_and_mask _

theorem BaseBits.ldVxK (x : Nibble) : BaseBits.Statement (.ldVxK x) :=
  encode_and_mask _

theorem BaseBits.ldDTVx (x : Nibble) : BaseBits.Statement (.ldDTVx x) :=
  encode_and_mask _

theorem BaseBits.ldSTVx (x : Nibble) : BaseBits.Statement (.ldSTVx x) :=
  encode_and_mask _

theorem BaseBits.addIVx (x : Nibble) : BaseBits.Statement (.addIVx x) :=
  encode_and_mask _

theorem BaseBits.ldF (x : Nibble) : BaseBits.Statement (.ldF x) :=
  encode_and_mask _

theorem BaseBits.ldB (x : Nibble) : BaseBits.Statement (.ldB x) :=
  encode_and_mask _

theorem BaseBits.ldMemVx (x : Nibble) : BaseBits.Statement (.ldMemVx x) :=
  encode_and_mask _

theorem BaseBits.ldVxMem (x : Nibble) : BaseBits.Statement (.ldVxMem x) :=
  encode_and_mask _

end Sys2Proof.Laws
end

