-- ==== Sys2Proof/Tests/Slice0.lean ====
section
/-!
SUPPORT. The model's own tests: the check of well-formedness, every constructor's decoding, single steps with the expected
results of spec/95_test_vectors.md, and for every statement with hypotheses a state and operands that meet them.
-/

namespace Sys2Proof.Tests

open Sys2Proof.Machine

/-! ## Helpers -/

/-- The state an outcome carries, or the state after reset with FAULT set where it carries none. -/
def after (o : Host.Outcome State Fault Refusal) : State :=
  match o with
  | .next t => t
  | _ => { State.reset with faultReg := .stackOverflow }

/-- `Step` of the word `w` placed at `PC`. -/
def stepOf (s : State) (w : Nat) : State := after (step (s.withFetchWord 16 w))

/-- `Execute(w)`. -/
def execOf (s : State) (w : Word) : State := after (execute w s)

/-- The state after reset with the registers of a list set. -/
def withRegs (rs : List (Nibble × Byte)) : State := rs.foldl (fun s r => s.writeV r.1 r.2) State.reset

/-- The state after reset with `SP` set. -/
def withSp (k : Byte) : State := { State.reset with sp := k }

/-- The state after reset with keys pressed. -/
def withKeys (ks : List Nibble) : State := ks.foldl (fun s k => setKey k true s) State.reset

/-- The state after reset with `I` set. -/
def withI (w : Word) : State := { State.reset with i := w }

/-- The numbers of some registers. -/
def regs (s : State) (xs : List Nibble) : List Nat := xs.map fun x => (s.readV x).toNat

/-- The bytes from an address on, as numbers. -/
def bytes (s : State) (a n : Nat) : List Nat := (List.range n).map fun k => (s.readMem (a + k)).toNat

/-! ## Well-formedness (R71, R76): one ill-formed operand form for each check -/

theorem test_wellFormed_accepts : AsmInstr.wellFormed ⟨.drw, [3, 4, 10]⟩ = true := by decide
theorem test_wellFormed_too_few : AsmInstr.wellFormed ⟨.drw, [3, 4]⟩ = false := by decide
theorem test_wellFormed_too_many : AsmInstr.wellFormed ⟨.cls, [0]⟩ = false := by decide
theorem test_wellFormed_addr : AsmInstr.wellFormed ⟨.jp, [4096]⟩ = false := by decide
theorem test_wellFormed_x : AsmInstr.wellFormed ⟨.ldReg, [16, 0]⟩ = false := by decide
theorem test_wellFormed_y : AsmInstr.wellFormed ⟨.ldReg, [0, 16]⟩ = false := by decide
theorem test_wellFormed_byte : AsmInstr.wellFormed ⟨.ldByte, [0, 256]⟩ = false := by decide
theorem test_wellFormed_nibble : AsmInstr.wellFormed ⟨.drw, [0, 0, 16]⟩ = false := by decide
theorem test_wellFormed_ignore : AsmInstr.wellFormed ⟨.jpV0, [1, 5]⟩ = false := by decide

/-! ## Decoding: words written out from the encodings of R65 and the vectors of 95_test_vectors.md 2.2, 2.9 -/

theorem test_decode_control :
    decode 0x00EE#16 = .ok .ret ∧ decode 0x1ABC#16 = .ok (.jp 0xABC) ∧ decode 0x230A#16 = .ok (.call 778) ∧
    decode 0x33F4#16 = .ok (.seByte 3 244) ∧ decode 0x4A01#16 = .ok (.sneByte 10 1) ∧
    decode 0x5120#16 = .ok (.seReg 1 2) ∧ decode 0x9120#16 = .ok (.sneReg 1 2) ∧
    decode 0xBFFF#16 = .ok (.jpV0 4095) := by decide

theorem test_decode_alu :
    decode 0x6A2C#16 = .ok (.ldByte 10 0x2C) ∧ decode 0x71FF#16 = .ok (.addByte 1 255) ∧
    decode 0x8AB0#16 = .ok (.ldReg 10 11) ∧ decode 0x8AB1#16 = .ok (.orReg 10 11) ∧
    decode 0x8AB2#16 = .ok (.andReg 10 11) ∧ decode 0x8AB3#16 = .ok (.xorReg 10 11) ∧
    decode 0x8AB4#16 = .ok (.addReg 10 11) ∧ decode 0x8AB5#16 = .ok (.subReg 10 11) ∧
    decode 0x8AB6#16 = .ok (.shr 10 11) ∧ decode 0x8AB7#16 = .ok (.subn 10 11) ∧
    decode 0x8ABE#16 = .ok (.shl 10 11) ∧ decode 0xC10F#16 = .ok (.rnd 1 15) := by decide

theorem test_decode_index_memory :
    decode 0xA2F0#16 = .ok (.ldI 0x2F0) ∧ decode 0xF51E#16 = .ok (.addIVx 5) ∧ decode 0xF529#16 = .ok (.ldF 5) ∧
    decode 0xF533#16 = .ok (.ldB 5) ∧ decode 0xF555#16 = .ok (.ldMemVx 5) ∧
    decode 0xF565#16 = .ok (.ldVxMem 5) := by decide

theorem test_decode_display : decode 0x00E0#16 = .ok .cls ∧ decode 0xD34A#16 = .ok (.drw 3 4 10) := by decide

theorem test_decode_keyboard_timers :
    decode 0xE59E#16 = .ok (.skp 5) ∧ decode 0xE5A1#16 = .ok (.sknp 5) ∧ decode 0xF507#16 = .ok (.ldVxDT 5) ∧
    decode 0xF50A#16 = .ok (.ldVxK 5) ∧ decode 0xF515#16 = .ok (.ldDTVx 5) ∧
    decode 0xF518#16 = .ok (.ldSTVx 5) := by decide

/-- E3, E8, E10, E12: refused, by family. -/
theorem test_decode_refuses :
    decode 0x00E1#16 = .error .family0 ∧ decode 0x0000#16 = .error .family0 ∧ decode 0x8AB8#16 = .error .family8 ∧
    decode 0x8ABF#16 = .error .family8 ∧ decode 0xE5A0#16 = .error .familyE ∧ decode 0xE500#16 = .error .familyE ∧
    decode 0xF500#16 = .error .familyF ∧ decode 0xF585#16 = .error .familyF := by decide

theorem test_decodeBytes_truncated : decodeBytes [0x12] = .error .truncated := by decide

/-- The table's numbering of bits: the whole word, low bit first. -/
theorem test_decodeTableWord : decodeTableWord 16 0x6A2C = some (.ldByte 10 0x2C) := by decide

/-! ## Fetch (95_test_vectors.md 2.1) -/

/-- T1. -/
theorem test_fetch_big_endian :
    (regs (stepOf State.reset 0x6A2C) [10], (stepOf State.reset 0x6A2C).pc) = ([0x2C], 0x202#16) := by decide
/-- T2. -/
theorem test_fetch_wraps :
    (regs (stepOf { State.reset with pc := 0xFFF#16 } 0x6A2C) [10],
      (stepOf { State.reset with pc := 0xFFF#16 } 0x6A2C).pc) = ([0x2C], 0x001#16) := by decide
/-- T5. -/
theorem test_unrecognised_only_advances :
    stepOf State.reset 0x8018 = (State.reset.withFetchWord 16 0x8018).advance := by decide
/-- T9. -/
theorem test_halted_core_stays :
    after (step { State.reset with faultReg := .stackOverflow, dt := 3#8 }) =
      { State.reset with faultReg := .stackOverflow, dt := 3#8 } := by decide

/-! ## Control transfer (2.3) -/

/-- C7. -/
theorem test_ret :
    let s : State := { withSp 1 with stack := State.reset.stack.set 1 0x204#16 }
    ((stepOf s 0x00EE).pc, (stepOf s 0x00EE).sp) = (0x204#16, 0#8) := by decide
/-- C8. -/
theorem test_ret_underflow :
    ((stepOf State.reset 0x00EE).faultReg, (stepOf State.reset 0x00EE).pc) = (.stackUnderflow, 0x200#16) := by decide
/-- C3. -/
theorem test_jp_odd : (stepOf State.reset 0x1201).pc = 0x201#16 := by decide
/-- C5. -/
theorem test_call_last_slot :
    ((stepOf (withSp 14) 0x2300).sp, (stepOf (withSp 14) 0x2300).stack[15], (stepOf (withSp 14) 0x2300).pc) =
      (15#8, 0x202#16, 0x300#16) := by decide
/-- C6. -/
theorem test_call_overflow :
    stepOf (withSp 15) 0x2300 =
      { (withSp 15).withFetchWord 16 0x2300 with faultReg := .stackOverflow } := by decide
/-- C10, C11. -/
theorem test_se_byte :
    ((stepOf (withRegs [(3, 244)]) 0x33F4).pc, (stepOf (withRegs [(3, 243)]) 0x33F4).pc) =
      (0x204#16, 0x202#16) := by decide
/-- C12, C13. -/
theorem test_sne_byte :
    ((stepOf (withRegs [(3, 244)]) 0x43F4).pc, (stepOf (withRegs [(3, 243)]) 0x43F4).pc) =
      (0x202#16, 0x204#16) := by decide
/-- C14, C15. -/
theorem test_se_reg :
    ((stepOf (withRegs [(1, 7), (2, 7)]) 0x5120).pc, (stepOf (withRegs [(1, 7), (2, 8)]) 0x5120).pc) =
      (0x204#16, 0x202#16) := by decide
/-- C17, C18. -/
theorem test_sne_reg :
    ((stepOf (withRegs [(1, 7), (2, 8)]) 0x9120).pc, (stepOf (withRegs [(4, 9)]) 0x9440).pc) =
      (0x204#16, 0x202#16) := by decide
/-- C19. -/
theorem test_skip_across_top :
    (stepOf { State.reset with pc := 0xFFE#16 } 0x3000).pc = 0x002#16 := by decide
/-- C20. -/
theorem test_jp_v0_wraps : (stepOf (withRegs [(0, 0xFF)]) 0xBFFF).pc = 0x0FE#16 := by decide
/-- C21. -/
theorem test_jp_v0_offset : (stepOf (withRegs [(11, 0x50)]) 0xB300).pc = 0x300#16 := by decide

/-! ## Arithmetic and logic (2.4) -/

/-- A2. -/
theorem test_ld_byte_vf : regs (execOf (withRegs [(15, 1)]) 0x6F00#16) [15] = [0] := by decide
/-- A3. -/
theorem test_add_byte_wraps : regs (execOf (withRegs [(1, 0xFF)]) 0x7102#16) [1, 15] = [1, 0] := by decide
/-- A5. -/
theorem test_ld_reg : regs (execOf (withRegs [(4, 9)]) 0x8240#16) [2, 4] = [9, 9] := by decide
/-- A6. -/
theorem test_or : regs (execOf (withRegs [(1, 0xF0), (2, 0x0F), (15, 1)]) 0x8121#16) [1, 15] = [0xFF, 1] := by decide
/-- A7. -/
theorem test_and : regs (execOf (withRegs [(1, 0xF3), (2, 0x3F)]) 0x8122#16) [1] = [0x33] := by decide
/-- A8. -/
theorem test_xor : regs (execOf (withRegs [(1, 0xFF), (2, 0x0F)]) 0x8123#16) [1] = [0xF0] := by decide
/-- A10, A11. -/
theorem test_add_carry :
    (regs (execOf (withRegs [(1, 200), (2, 100)]) 0x8124#16) [1, 15],
      regs (execOf (withRegs [(1, 200), (2, 55)]) 0x8124#16) [1, 15]) = ([44, 1], [255, 0]) := by decide
/-- A14, A15. -/
theorem test_add_with_vf :
    (regs (execOf (withRegs [(15, 200), (1, 100)]) 0x8F14#16) [15],
      regs (execOf (withRegs [(1, 250), (15, 10)]) 0x81F4#16) [1, 15]) = ([1], [4, 1]) := by decide
/-- A17, A18. -/
theorem test_sub :
    (regs (execOf (withRegs [(1, 3), (2, 5)]) 0x8125#16) [1, 15],
      regs (execOf (withRegs [(1, 5), (2, 5)]) 0x8125#16) [1, 15]) = ([254, 0], [0, 1]) := by decide
/-- A19. -/
theorem test_sub_vf : regs (execOf (withRegs [(15, 5), (1, 5)]) 0x8F15#16) [15] = [1] := by decide
/-- A21. -/
theorem test_shr_ignores_vy :
    regs (execOf (withRegs [(1, 4), (2, 0xFF)]) 0x8126#16) [1, 2, 15] = [2, 0xFF, 0] := by decide
/-- A23. -/
theorem test_shr_vf : regs (execOf (withRegs [(15, 3)]) 0x8F06#16) [15] = [1] := by decide
/-- A24. -/
theorem test_subn : regs (execOf (withRegs [(1, 3), (2, 5)]) 0x8127#16) [1, 15] = [2, 1] := by decide
/-- A25. -/
theorem test_subn_borrow : regs (execOf (withRegs [(1, 5), (2, 3)]) 0x8127#16) [1, 15] = [254, 0] := by decide
/-- A27. -/
theorem test_shl : regs (execOf (withRegs [(1, 0x81)]) 0x810E#16) [1, 15] = [2, 1] := by decide
/-- A29. -/
theorem test_shl_vf : regs (execOf (withRegs [(15, 0x81)]) 0x8F0E#16) [15] = [1] := by decide
/-- A31: whatever the draw. -/
theorem test_rnd_masked : after (exec (.rnd 1 0#8) State.reset) = State.reset.drawn.writeV 1 0#8 := by
  simp [after, exec, execRnd]

/-! ## The address register and memory (2.5) -/

/-- M1. -/
theorem test_ld_i : (execOf State.reset 0xA2F0#16).i = 0x2F0#16 := by decide
/-- M3. -/
theorem test_add_i_wraps :
    ((execOf { withRegs [(2, 2)] with i := 0xFFF#16 } 0xF21E#16).i,
      regs (execOf { withRegs [(2, 2)] with i := 0xFFF#16 } 0xF21E#16) [15]) = (0x001#16, [0]) := by decide
/-- M4, M5. -/
theorem test_ld_f :
    ((execOf (withRegs [(3, 0x0A)]) 0xF329#16).i, (execOf (withRegs [(3, 0xFF)]) 0xF329#16).i) =
      (0x032#16, 0x4FB#16) := by decide
/-- M6. -/
theorem test_ld_b : bytes (execOf { withRegs [(1, 254)] with i := 0x300#16 } 0xF133#16) 0x300 3 = [2, 5, 4] := by decide
/-- M8. -/
theorem test_ld_b_wraps :
    bytes (execOf { withRegs [(1, 254)] with i := 0xFFE#16 } 0xF133#16) 0xFFE 3 = [2, 5, 4] := by decide
/-- M9. -/
theorem test_store_range :
    let t := execOf { withRegs [(0, 1), (1, 2), (2, 3), (3, 9)] with i := 0x400#16 } 0xF255#16
    (bytes t 0x400 4, t.i) = ([1, 2, 3, 0], 0x400#16) := by decide
/-- M11. -/
theorem test_load_range :
    let s : State := { withRegs [(3, 9)] with i := 0x300#16, mem := [(0x300, 2), (0x301, 5), (0x302, 4)] }
    regs (execOf s 0xF265#16) [0, 1, 2, 3] = [2, 5, 4, 9] := by decide
/-- M12, its first five bytes. -/
theorem test_load_range_font : regs (execOf State.reset 0xFF65#16) [0, 1, 2, 3, 4] = [0xF0, 0x90, 0x90, 0x90, 0xF0] := by
  decide

/-! ## Display (2.6) -/

/-- G1. -/
theorem test_cls :
    let t := execOf { withRegs [(15, 1)] with disp := Vector.replicate 32 (BitVec.allOnes 64) } 0x00E0#16
    (t.disp, regs t [15]) = (State.reset.disp, [1]) := by decide
/-- G2. -/
theorem test_drw_clips :
    let t := execOf (withRegs [(0, 126), (1, 63)]) 0xD015#16
    (t.disp, regs t [15]) = (State.reset.disp.set 31 3#64, [0]) := by decide
/-- G6. -/
theorem test_drw_collides :
    let t := execOf { State.reset with disp := State.reset.disp.set 0 0x8000000000000000#64 } 0xD001#16
    (t.disp, regs t [15]) = (State.reset.disp.set 0 0x7000000000000000#64, [1]) := by decide

/-! ## Keyboard and timers (2.7) -/

/-- K1, K2. -/
theorem test_skp :
    ((stepOf ((withKeys [7]).writeV 2 7) 0xE29E).pc, (stepOf (withRegs [(2, 7)]) 0xE29E).pc) =
      (0x204#16, 0x202#16) := by decide
/-- K4. -/
theorem test_skp_low_nibble : (stepOf ((withKeys [7]).writeV 2 0x17) 0xE29E).pc = 0x204#16 := by decide
/-- K3. -/
theorem test_sknp : (stepOf (withRegs [(2, 7)]) 0xE2A1).pc = 0x204#16 := by decide
/-- K5. -/
theorem test_ld_vx_dt : regs (execOf { State.reset with dt := 0x3C#8 } 0xF507#16) [5] = [0x3C] := by decide
/-- K6. -/
theorem test_ld_dt_vx : (execOf (withRegs [(5, 60)]) 0xF515#16).dt = 60#8 := by decide
/-- K7. -/
theorem test_ld_st_vx : (execOf (withRegs [(5, 4)]) 0xF518#16).st = 4#8 := by decide
/-- K8. -/
theorem test_key_wait_holds : stepOf State.reset 0xF10A = State.reset.withFetchWord 16 0xF10A := by decide
/-- K9. -/
theorem test_key_wait_least :
    (regs (stepOf (withKeys [3, 9]) 0xF10A) [1], (stepOf (withKeys [3, 9]) 0xF10A).pc) = ([3], 0x202#16) := by decide
/-- K10, K11. -/
theorem test_timer_tick :
    ((timerTick { State.reset with dt := 2#8 }).dt, (timerTick { State.reset with st := 1#8 }).st,
      (timerTick State.reset).dt) = (1#8, 0#8, 0#8) := by decide

/-! ## Reset and load (2.8) -/

/-- Z1. -/
theorem test_reset_memory : (bytes State.reset 0 5, bytes State.reset 0x50 1, bytes State.reset 0x200 1) =
    ([0xF0, 0x90, 0x90, 0x90, 0xF0], [0], [0]) := by decide
/-- Z2. -/
theorem test_load_rom : bytes (after (loadROM [0x00, 0xE0, 0x12, 0x02] State.reset)) 0x200 4 =
    [0x00, 0xE0, 0x12, 0x02] := by decide

/-! ## The toolchain (1.3 to 1.5, 2.9) -/

theorem test_assemble :
    assembleLine [] "DRW V3, V4, 10".toList = .ok 0xD34A#16 ∧ assembleLine [] "LD V2, V4".toList = .ok 0x8240#16 ∧
    assembleLine [] [] = .error .malformedInstruction ∧ assembleLine [] "LD V16, 300".toList = .ok 0x602C#16 := by decide

theorem test_normalize :
    normalize ["ADD".toList, "I".toList, "V2".toList] = some .addIVx ∧
    normalize ["ADD".toList, "V1".toList, "V2".toList] = some .addReg ∧
    normalize ["ADD".toList, "V1".toList, "9".toList] = some .addByte := by decide

theorem test_disassemble :
    disassemble 0x33F4#16 = .ok "SE V3, 244".toList ∧ disassemble 0xF465#16 = .ok "LD V4, [I]".toList ∧
    disassemble 0x5121#16 = .ok "SE V1, V2".toList ∧ disassemble 0x8AB8#16 = .error .unrecognizedOpcode := by decide

/-- The labels of program P7's shape: a label is the address of the instruction line after it. -/
theorem test_assemble_source :
    assembleSource ["# note".toList, ":wait".toList, "LD V1, DT".toList, "".toList, "JP wait".toList] =
      .ok [0xF107#16, 0x1200#16] := by decide

/-! ## Witnesses: for every statement with hypotheses, a state and operands that meet them -/

theorem witness_RetReturnsOrUnderflows :
    ((withSp 1).sp.toNat < 16 ∧ (withSp 1).sp ≠ 0#8) ∧ ((withSp 15).sp.toNat < 16 ∧ (withSp 15).sp ≠ 0#8) ∧
    (withSp 0).sp = 0#8 := by decide

theorem witness_CallPushesOrOverflows :
    (withSp 0).sp.toNat < 15 ∧ (withSp 14).sp.toNat < 15 ∧ (withSp 15).sp = 15#8 := by decide

theorem witness_SkipsComparingImmediate :
    (((withRegs [(3, 244)]).readV 3).toNat = (244#8).toNat) ∧ (((withRegs [(3, 243)]).readV 3).toNat ≠ (244#8).toNat) := by
  decide

theorem witness_SkipsComparingRegisters :
    ((withRegs [(1, 7), (2, 7)]).readV 1).toNat = ((withRegs [(1, 7), (2, 7)]).readV 2).toNat ∧
    ((withRegs [(1, 7), (2, 8)]).readV 1).toNat ≠ ((withRegs [(1, 7), (2, 8)]).readV 2).toNat := by decide

/-- A sum of 256 and one of 255; destinations that are `VF` and not. -/
theorem witness_AddSetsCarry :
    ((withRegs [(1, 255), (2, 1)]).readV 1).toNat + ((withRegs [(1, 255), (2, 1)]).readV 2).toNat > 255 ∧
    ¬ ((withRegs [(1, 254), (2, 1)]).readV 1).toNat + ((withRegs [(1, 254), (2, 1)]).readV 2).toNat > 255 ∧
    (1#4 : Nibble) ≠ 15#4 ∧ ¬ (15#4 : Nibble) ≠ 15#4 := by decide

/-- Equal operands and operands one apart. -/
theorem witness_SubtractSetsNotBorrow :
    ((withRegs [(1, 5), (2, 5)]).readV 1).toNat ≥ ((withRegs [(1, 5), (2, 5)]).readV 2).toNat ∧
    ¬ ((withRegs [(1, 4), (2, 5)]).readV 1).toNat ≥ ((withRegs [(1, 4), (2, 5)]).readV 2).toNat := by decide

theorem witness_ShiftsSetShiftedOutBit :
    ((withRegs [(1, 1)]).readV 1).toNat % 2 = 1 ∧ ¬ ((withRegs [(1, 2)]).readV 1).toNat % 2 = 1 ∧
    ((withRegs [(1, 128)]).readV 1).toNat ≥ 128 ∧ ¬ ((withRegs [(1, 127)]).readV 1).toNat ≥ 128 := by decide

/-- A canonical memory, and with `I` two below the top the addresses just outside the three bytes stored. -/
theorem witness_BcdStoresDigits :
    (withI 0xFFE).mem.wf = true ∧ (∀ k, k < 3 → 0xFFD % 4096 ≠ (withI 0xFFE).effAddr k) ∧
    (∀ k, k < 3 → 1 % 4096 ≠ (withI 0xFFE).effAddr k) := by decide

/-- The shortest and the longest range, and the address after each. -/
theorem witness_BlockStoreWritesRange :
    (withI 0x400).mem.wf = true ∧ (0#4 : Nibble) ≤ 0#4 ∧ (15#4 : Nibble) ≤ 15#4 ∧
    (∀ k : Nibble, k ≤ 0#4 → 0x401 % 4096 ≠ (withI 0x400).effAddr k.toNat) ∧
    (∀ k : Nibble, k ≤ 15#4 → 0x410 % 4096 ≠ (withI 0x400).effAddr k.toNat) := by decide

/-- A lit pixel under a 1 bit of glyph 0, and a clear display. -/
theorem witness_DrwXorsSpritePixels :
    (pixel (State.reset.disp.set 0 0x8000000000000000#64) 0 0 = true ∧ spritePixel State.reset 0 0 1 0 0 = true) ∧
    ¬ (∃ r c, r < 32 ∧ c < 64 ∧ pixel State.reset.disp r c = true ∧ spritePixel State.reset 0 0 5 r c = true) := by
  refine ⟨by decide, ?_⟩
  rintro ⟨r, c, hr, _, hp, _⟩
  simp [pixel, readRow, State.reset, hr] at hp

/-- Coordinates in `V0`, a first draw with no collision over a dark pixel, and a first draw of one sprite row over a row lit
throughout, where the sprite has no dark pixel. -/
theorem witness_DrawingTwiceRestoresDisplay :
    (0#4 : Nibble) ≠ 15#4 ∧
    ((after (exec (.drw 0 0 5) State.reset)).readV 15#4 = 0#8 ∧ spritePixel State.reset 0 0 5 0 0 = true ∧
      pixel State.reset.disp 0 0 = false) ∧
    ¬ (∃ r c, r < 32 ∧ c < 64 ∧ pixel (Vector.replicate 32 (BitVec.allOnes 64)) r c = false ∧
      spritePixel State.reset 0 0 5 r c = true) := by
  refine ⟨by decide, by decide, ?_⟩
  rintro ⟨r, c, hr, hc, hp, _⟩
  rw [pixel, readRow, Vector.getElem?_replicate, if_pos hr, Option.getD_some, BitVec.getLsbD_allOnes,
    decide_eq_true (show 63 - c < 64 by omega)] at hp
  exact absurd hp (by decide)

theorem witness_SkipsOnKeyState :
    ((withKeys [7]).writeV 2 0x17).key[(((withKeys [7]).writeV 2 0x17).readV 2).toNat % 16]'(Nat.mod_lt _ (by decide)) =
      true ∧
    (withRegs [(2, 7)]).key[((withRegs [(2, 7)]).readV 2).toNat % 16]'(Nat.mod_lt _ (by decide)) = false := by decide

/-- The least key at both ends of the range, and no key. -/
theorem witness_KeyWaitTakesLeastKeyOrHolds :
    ((withKeys [0]).key[0] = true ∧ ∀ j (_ : j < 0), (withKeys [0]).key[j] = false) ∧
    ((withKeys [15]).key[15] = true ∧ ∀ j (_ : j < 15), (withKeys [15]).key[j] = false) ∧
    (∀ j (_ : j < 16), State.reset.key[j] = false) := by decide

/-- A canonical word and the alias words whose bottom nibble is not 0. -/
theorem witness_EncodeDecodeIsCanonicalWord :
    decode 0x8AB7#16 = .ok (.subn 10 11) ∧ (decode 0x512F#16 = .ok (.seReg 1 2) ∧ topNibble 0x512F#16 = 5#4) ∧
    (decode 0x912A#16 = .ok (.sneReg 1 2) ∧ topNibble 0x912A#16 = 9#4) := by decide

theorem witness_DecoderIsOpcodeTable :
    (nameOf 0xF365#16 = .ok .ldVxMem ∧ 0xF365#16 &&& Name.ldVxMem.mask = Name.ldVxMem.base) ∧
    (nameOf 0xF366#16 ≠ .ok .ldVxMem ∧ 0xF366#16 &&& Name.ldVxMem.mask ≠ Name.ldVxMem.base) := by decide

theorem witness_TokenizerSplitsAtSeparators :
    ['V', '3'] ∈ tokenize "DRW V3, V4".toList ∧ ['V', '3'] ≠ [] ∧ ∀ c ∈ ['V', '3'], c ≠ ' ' ∧ c ≠ ',' := by
  refine ⟨by decide, by decide, fun c hc => ?_⟩
  simp only [List.mem_cons, List.not_mem_nil, or_false] at hc
  rcases hc with rfl | rfl <;> decide

/-- One instruction line before the label, one after it. -/
theorem witness_LabelsAreInstructionAddresses :
    preprocess 0x200 [] (["CLS".toList] ++ (':' :: "end".toList) :: ["JP end".toList]) =
      .ok ([("end".toList, 0x202)], ["CLS".toList, "JP end".toList]) := by decide

/-- Operands one too large for their fields. -/
theorem witness_LargeOperandsAreTruncated :
    [16, 256].length = Name.ldByte.fields.length ∧
    AsmInstr.encode ⟨.ldByte, [16, 256]⟩ = AsmInstr.encode ⟨.ldByte, [0, 0]⟩ := by decide

/-- A word at the reset vector, and one across the top of memory. -/
theorem witness_StepRunsDecodedInstruction :
    let s := State.reset.withFetchWord 16 0x6A2C
    let t := ({ State.reset with pc := 0xFFF#16 } : State).withFetchWord 16 0x6A2C
    (s.faultReg = .none ∧ (0x6A2C#16).toNat =
      256 * (s.readMem s.pc.toNat).toNat + (s.readMem ((s.pc.toNat + 1) % 4096)).toNat) ∧
    (t.faultReg = .none ∧ (0x6A2C#16).toNat =
      256 * (t.readMem t.pc.toNat).toNat + (t.readMem ((t.pc.toNat + 1) % 4096)).toNat) ∧
    decode 0x6A2C#16 = .ok (.ldByte 10 0x2C) := by decide

theorem witness_UnrecognisedWordIsNoOperation :
    decode 0x8AB8#16 = .error .family8 ∧ decode (State.reset.withFetchWord 16 0xE50E).fetch = .error .familyE ∧
    (State.reset.withFetchWord 16 0xE50E).faultReg = .none := by decide

theorem witness_PcAfterEveryStep :
    State.reset.pc.toNat < 4096 ∧ State.reset.faultReg = .none ∧
    ({ State.reset with faultReg := .stackUnderflow } : State).faultReg ≠ .none := by decide

/-- Both faults by `exec`, a step that raises one, and events on a halted core. -/
theorem witness_FaultsArePreciseAndSticky :
    (exec (.call 0x300) (withSp 15) = .next ((withSp 15).raise .stackOverflow) ∧
      ((withSp 15).raise .stackOverflow).faultReg ≠ (withSp 15).faultReg) ∧
    (exec .ret State.reset = .next (State.reset.raise .stackUnderflow) ∧
      (State.reset.raise .stackUnderflow).faultReg ≠ State.reset.faultReg) ∧
    (step (State.reset.withFetchWord 16 0x00EE) = .next (stepOf State.reset 0x00EE) ∧
      (stepOf State.reset 0x00EE).faultReg ≠ (State.reset.withFetchWord 16 0x00EE).faultReg) ∧
    ((State.reset.raise .stackOverflow).Failed ∧ Event.timerTick ≠ .reset ∧
      applyEvent Config.font .timerTick (State.reset.raise .stackOverflow) =
        .next (timerTick (State.reset.raise .stackOverflow))) := by
  exact ⟨⟨rfl, by decide⟩, ⟨rfl, by decide⟩, ⟨rfl, by decide⟩, by decide, by decide, rfl⟩

/-- A step from a legal state that writes `I`. -/
theorem witness_StepKeepsLegalState :
    (State.reset.withFetchWord 16 0xA2F0).Legal ∧
    step (State.reset.withFetchWord 16 0xA2F0) = .next (stepOf State.reset 0xA2F0) := ⟨by decide, rfl⟩

theorem witness_EveryScheduleKeepsLegalState :
    State.reset.Legal ∧ runEvents Config.font [.setKey 3 true, .timerTick] State.reset =
      .next (timerTick (setKey 3 true State.reset)) := ⟨by decide, rfl⟩

/-- A step that pushes. -/
theorem witness_StepKeepsStackSlotsLegal :
    (State.reset.withFetchWord 16 0x2300).pc.toNat < 4096 ∧ (State.reset.withFetchWord 16 0x2300).StackLegal ∧
    step (State.reset.withFetchWord 16 0x2300) = .next (stepOf State.reset 0x2300) := ⟨by decide, by decide, rfl⟩

/-- One memory, reached by writes in two orders. -/
theorem witness_CanonicalMemoriesAreDetermined :
    let m : Memory := Memory.write (Memory.write [] 0x300 1) 0x301 2
    let m' : Memory := Memory.write (Memory.write [] 0x301 2) 0x300 1
    m.wf = true ∧ m'.wf = true ∧ ∀ a, a < 4096 → m.read a = m'.read a := by
  refine ⟨by decide, by decide, fun a _ => ?_⟩
  rw [show Memory.write (Memory.write [] 0x300 1) 0x301 2 = Memory.write (Memory.write [] 0x301 2) 0x300 1 by decide]

/-- One instruction for each piece of state that changes it. -/
theorem witness_OnlyListedInstructionsWrite :
    (after (exec (.ldI 5) State.reset)).i ≠ State.reset.i ∧
    (after (exec (.call 5) State.reset)).sp ≠ State.reset.sp ∧
    (after (exec (.call 5) State.reset)).stack ≠ State.reset.stack ∧
    (after (exec (.ldDTVx 1) (withRegs [(1, 9)]))).dt ≠ (withRegs [(1, 9)]).dt ∧
    (after (exec (.ldSTVx 1) (withRegs [(1, 9)]))).st ≠ (withRegs [(1, 9)]).st ∧
    (after (exec (.ldB 1) State.reset)).readMem 0 ≠ State.reset.readMem 0 ∧
    (after (exec (.drw 0 0 1) State.reset)).disp ≠ State.reset.disp ∧
    (after (exec .ret State.reset)).faultReg ≠ State.reset.faultReg ∧
    (after (exec (.rnd 1 0) State.reset)).draws ≠ State.reset.draws := by
  exact ⟨by decide, by decide, by decide, by decide, by decide, by decide, by decide, by decide,
    show State.reset.drawn.draws ≠ _ by decide⟩

/-- A plain destination and a flag that change, and a flag writer. -/
theorem witness_OnlyDestinationsAndFlagsChange :
    exec (.addReg 1 2) (withRegs [(1, 255), (2, 2)]) = .next (execOf (withRegs [(1, 255), (2, 2)]) 0x8124#16) ∧
    (execOf (withRegs [(1, 255), (2, 2)]) 0x8124#16).readV 1 ≠ (withRegs [(1, 255), (2, 2)]).readV 1 ∧
    (execOf (withRegs [(1, 255), (2, 2)]) 0x8124#16).readV 15 ≠ (withRegs [(1, 255), (2, 2)]).readV 15 ∧
    (Instr.addReg 1 2).name ∈ flagWriters := ⟨rfl, by decide, by decide, by decide⟩

theorem witness_SoundTimerHasNoEffect :
    step (State.reset.withFetchWord 16 0x6A2C) = .next (stepOf State.reset 0x6A2C) := rfl

theorem witness_SelfJumpIsFixedPoint :
    (State.reset.withFetchWord 16 0x1200).faultReg = .none ∧ (State.reset.withFetchWord 16 0x1200).pc.toNat < 4096 ∧
    decode (State.reset.withFetchWord 16 0x1200).fetch = .ok (.jp 0x200) ∧
    (0x200#12).toNat = (State.reset.withFetchWord 16 0x1200).pc.toNat := by decide

theorem witness_KeyWaitHoldsUntilPress :
    (State.reset.withFetchWord 16 0xF10A).faultReg = .none ∧ (State.reset.withFetchWord 16 0xF10A).pc.toNat < 4096 ∧
    decode (State.reset.withFetchWord 16 0xF10A).fetch = .ok (.ldVxK 1) ∧
    (∀ j (_ : j < 16), (State.reset.withFetchWord 16 0xF10A).key[j] = false) := by decide

/-- Transfers that reach both bytes of the next instruction, its high byte alone, its low byte alone, and neither. -/
theorem witness_StoredCodeIsFetched :
    (withI 0x200).mem.wf = true ∧
    (0 < (1#4 : Nibble).toNat + 1 ∧ (withI 0x200).effAddr 0 = (withI 0x200).pc.toNat % 4096) ∧
    (1 < (1#4 : Nibble).toNat + 1 ∧ (withI 0x200).effAddr 1 = ((withI 0x200).pc.toNat + 1) % 4096) ∧
    (∀ k, k < (0#4 : Nibble).toNat + 1 → (withI 0x200).effAddr k ≠ ((withI 0x200).pc.toNat + 1) % 4096) ∧
    (2 < 3 ∧ (withI 0x1FE).effAddr 2 = (withI 0x1FE).pc.toNat % 4096) ∧
    (0 < 3 ∧ (withI 0x201).effAddr 0 = ((withI 0x201).pc.toNat + 1) % 4096) ∧
    (∀ k, k < 3 → (withI 0x201).effAddr k ≠ (withI 0x201).pc.toNat % 4096) := by decide

theorem witness_CallThenRetRestores : (withSp 14).pc.toNat < 4096 ∧ (withSp 14).sp.toNat < 15 := by decide

theorem witness_FifteenCallsFit : State.reset.faultReg = .none ∧ State.reset.sp = 0#8 ∧ 0 ≤ 15 ∧ 15 ≤ 15 := by decide

/-- A font that has glyph 0 as the source fixes it and is not the default, and a byte of each clause on memory. -/
theorem witness_ResetPutsEveryPiece :
    GlyphZero (Config.font.set 79 0xAA) ∧ Config.font.set 79 0xAA ≠ Config.font ∧
    (after (applyEvent (Config.font.set 79 0xAA) .reset (withI 5))).readMem 79 = 0xAA#8 ∧
    (after (applyEvent (Config.font.set 79 0xAA) .reset (withI 5))).readMem 80 = 0#8 := by
  unfold GlyphZero
  decide

/-- The largest value `SP` takes, the smallest it does not, and two elements. -/
theorem witness_PokeThenPeek :
    State.reset.Legal ∧ 15 < 16 ∧ 16 ≤ 16 ∧ Element.mem 0x300 ≠ .mem 0x301 ∧
    peek .sp (after (applyEvent Config.font (.poke .sp 15) State.reset)) = 15 ∧
    after (applyEvent Config.font (.poke .sp 16) State.reset) = after (.refused .pokeRefused) := by decide

/-- The longest image, and one byte more. -/
theorem witness_LoadRomCopiesImage :
    State.reset.mem.wf = true ∧ (List.replicate 3584 0xFF#8).length ≤ 3584 ∧
    3584 < (List.replicate 3585 0xFF#8).length := by
  exact ⟨by decide, by rw [List.length_replicate], by rw [List.length_replicate]; decide⟩

theorem witness_SerialisedWordsAreFetched :
    State.reset.mem.wf = true ∧ 2 * (List.replicate 1792 0x1200#16).length ≤ 3584 ∧
    (0x200#16).toNat = 0x200 + 2 * 0 ∧ (0xFFE#16).toNat = 0x200 + 2 * 1791 := by
  refine ⟨by decide, ?_, by decide, by decide⟩
  rw [List.length_replicate]

theorem witness_TicksAndKeysLeaveProgramState :
    (∀ e ∈ [Event.timerTick, .setKey 3 true], e = .timerTick ∨ ∃ k b, e = .setKey k b) ∧
    runEvents Config.font [.timerTick, .setKey 3 true] State.reset = .next (setKey 3 true (timerTick State.reset)) := by
  refine ⟨?_, rfl⟩
  intro e he
  simp only [List.mem_cons, List.not_mem_nil, or_false] at he
  exact he.imp id fun h => ⟨3, true, h⟩

end Sys2Proof.Tests
end

section
/-!
PROOFS. The tokenizer (R73): what a separator and any other character do to the token in progress, and from that the
statement about the tokens of a line.
-/
namespace Sys2Proof.Machine

/-! ## Separators and the token in progress -/

@[simp] theorem isSeparator_eq_true_iff {c : Char} : isSeparator c = true ↔ c = ' ' ∨ c = ',' := by
  simp [isSeparator]

@[simp] theorem consToken_nil (ts : List Text) : consToken [] ts = ts := rfl

@[simp] theorem consToken_of_ne_nil {t : Text} (ht : t ≠ []) (ts : List Text) : consToken t ts = t :: ts := by
  simp [consToken, ht]

theorem consToken_append (t : Text) (ts us : List Text) : consToken t (ts ++ us) = consToken t ts ++ us := by
  cases t <;> rfl

/-- A collected token comes out only when it is not empty. -/
theorem mem_consToken {t cur : Text} {ts : List Text} : t ∈ consToken cur ts ↔ (t = cur ∧ cur ≠ []) ∨ t ∈ ts := by
  cases cur <;> simp

theorem tokenizeFrom_nil (cur : Text) : tokenizeFrom cur [] = consToken cur [] := rfl

/-- A separator ends the token in progress, and the rest is tokenized afresh. -/
theorem tokenizeFrom_cons_separator {c : Char} (hc : isSeparator c = true) (cur cs : Text) :
    tokenizeFrom cur (c :: cs) = consToken cur (tokenize cs) := by
  simp only [tokenizeFrom, tokenize, hc, if_true]

/-- Any other character joins the token in progress. -/
theorem tokenizeFrom_cons_other {c : Char} (hc : ¬ isSeparator c = true) (cur cs : Text) :
    tokenizeFrom cur (c :: cs) = tokenizeFrom (cur ++ [c]) cs := by
  simp only [tokenizeFrom, hc, if_false, Bool.false_eq_true]

/-! ## Texts without separators -/

/-- No character of the text is a separator. -/
def SeparatorFree (t : Text) : Prop := ∀ c ∈ t, ¬ isSeparator c = true

theorem separatorFree_iff {t : Text} : SeparatorFree t ↔ ∀ c ∈ t, c ≠ ' ' ∧ c ≠ ',' := by
  simp only [SeparatorFree, isSeparator_eq_true_iff, not_or, ne_eq]

theorem separatorFree_nil : SeparatorFree [] := List.forall_mem_nil _

theorem separatorFree_append_singleton {t : Text} {c : Char} (ht : SeparatorFree t) (hc : ¬ isSeparator c = true) :
    SeparatorFree (t ++ [c]) :=
  List.forall_mem_append.2 ⟨ht, List.forall_mem_singleton.2 hc⟩

/-! ## What the tokenizer gives -/

theorem tokenizeFrom_mem {cur line t : Text} (hcur : SeparatorFree cur) (ht : t ∈ tokenizeFrom cur line) :
    t ≠ [] ∧ SeparatorFree t := by
  induction line generalizing cur with
  | nil =>
    rw [tokenizeFrom_nil, mem_consToken] at ht
    obtain ⟨rfl, hne⟩ | hnil := ht
    · exact ⟨hne, hcur⟩
    · exact absurd hnil List.not_mem_nil
  | cons c cs ih =>
    by_cases hc : isSeparator c = true
    · rw [tokenizeFrom_cons_separator hc, mem_consToken] at ht
      obtain ⟨rfl, hne⟩ | hrest := ht
      · exact ⟨hne, hcur⟩
      · exact ih separatorFree_nil hrest
    · rw [tokenizeFrom_cons_other hc] at ht
      exact ih (separatorFree_append_singleton hcur hc) ht

theorem tokenizeFrom_append_separator {c : Char} (hc : isSeparator c = true) (cur a b : Text) :
    tokenizeFrom cur (a ++ c :: b) = tokenizeFrom cur a ++ tokenize b := by
  induction a generalizing cur with
  | nil => rw [List.nil_append, tokenizeFrom_cons_separator hc, tokenizeFrom_nil, ← consToken_append, List.nil_append]
  | cons d a ih =>
    rw [List.cons_append]
    by_cases hd : isSeparator d = true
    · rw [tokenizeFrom_cons_separator hd, tokenizeFrom_cons_separator hd, ← consToken_append]
      exact congrArg (consToken cur) (ih [])
    · rw [tokenizeFrom_cons_other hd, tokenizeFrom_cons_other hd, ih]

theorem tokenizeFrom_of_separatorFree {t : Text} (ht : SeparatorFree t) (cur : Text) :
    tokenizeFrom cur t = consToken (cur ++ t) [] := by
  induction t generalizing cur with
  | nil => rw [tokenizeFrom_nil, List.append_nil]
  | cons c t ih =>
    obtain ⟨hc, ht⟩ := List.forall_mem_cons.1 ht
    rw [tokenizeFrom_cons_other hc, ih ht, List.append_assoc, List.singleton_append]

/-- Settles O30: every part is a fact about splitting with a token in progress, by induction on the line, taken at the
empty token. -/
theorem tokenizerSplitsAtSeparators : Obligations.TokenizerSplitsAtSeparators := by
  refine ⟨fun line t ht => ?_, tokenizeFrom_append_separator (by decide) [],
    tokenizeFrom_append_separator (by decide) [], fun t hne ht => ?_, rfl⟩
  · exact (tokenizeFrom_mem separatorFree_nil ht).imp_right separatorFree_iff.1
  · calc
      tokenize t = consToken t [] := tokenizeFrom_of_separatorFree (separatorFree_iff.2 ht) []
      _ = [t] := consToken_of_ne_nil hne []

end Sys2Proof.Machine
end

section
/-!
PROOFS. The rows of R65 that the top nibble alone tells apart (mask 0xF000): the decoder reads exactly their words. From
that the statement about `JP` (R101).
-/
namespace Sys2Proof.Machine

/-! ## The top nibble and the mask 0xF000 -/

theorem topNibble_eq_iff {op b : Word} : topNibble op = topNibble b ↔ op.toNat / 4096 = b.toNat / 4096 := by
  rw [← BitVec.toNat_inj, topNibble_toNat, topNibble_toNat]

theorem and_F000_eq_iff {op b : Word} : op &&& 0xF000#16 = b &&& 0xF000#16 ↔ topNibble op = topNibble b := by
  rw [← BitVec.toNat_inj, and_F000_toNat, and_F000_toNat, topNibble_eq_iff]
  omega

/-! ## The name of a word and its top nibble (R64) -/

theorem topNibble_base_of_nameOf8 {op : Word} {n : Name} (h : nameOf8 op = .ok n) : topNibble n.base = 0x8#4 := by
  unfold nameOf8 at h
  split at h <;> cases h <;> rfl

theorem topNibble_base_of_nameOfE {op : Word} {n : Name} (h : nameOfE op = .ok n) : topNibble n.base = 0xE#4 := by
  unfold nameOfE at h
  split at h <;> cases h <;> rfl

theorem topNibble_base_of_nameOfF {op : Word} {n : Name} (h : nameOfF op = .ok n) : topNibble n.base = 0xF#4 := by
  unfold nameOfF at h
  split at h <;> cases h <;> rfl

/-- Every recognised word has the top nibble of its row's base bits. -/
theorem topNibble_of_nameOf {op : Word} {n : Name} (h : nameOf op = .ok n) : topNibble op = topNibble n.base := by
  unfold nameOf at h
  split_ifs at h with hcls hret
  · cases h
    rw [hcls]
    rfl
  · cases h
    rw [hret]
    rfl
  · -- Arms 1, 9, 15 and 16 of the match are the families of 0x0, 0x8, 0xE and 0xF; each other arm is one row.
    split at h
    case h_1 => cases h
    case h_9 htop => rw [htop, topNibble_base_of_nameOf8 h]
    case h_15 htop => rw [htop, topNibble_base_of_nameOfE h]
    case h_16 =>
      rw [topNibble_base_of_nameOfF h]
      simp only [imp_false] at *
      bv_omega
    all_goals
      cases h
      assumption

/-- No row told by its top nibble lies in the `0x0` family of `CLS` and `RET`. -/
theorem topNibble_base_ne_zero {n : Name} (hm : n.mask = 0xF000#16) : topNibble n.base ≠ 0x0#4 := by
  revert hm
  cases n <;> decide

/-- A top nibble other than 0 that is a row's alone names the row. -/
theorem nameOf_of_topNibble_base {op : Word} {n : Name} (hm : n.mask = 0xF000#16)
    (h : topNibble op = topNibble n.base) : nameOf op = .ok n := by
  have htop : topNibble op ≠ 0x0#4 := h ▸ topNibble_base_ne_zero hm
  have hcls : op ≠ 0x00E0#16 := by
    rintro rfl
    exact htop rfl
  have hret : op ≠ 0x00EE#16 := by
    rintro rfl
    exact htop rfl
  rw [nameOf, if_neg hcls, if_neg hret, h]
  cases n <;> cases hm <;> rfl

/-- A word decodes to the instruction a name builds from its fields exactly when it has that name. -/
theorem decode_eq_instrOf_iff {op : Word} {n : Name} : decode op = .ok (instrOf n op) ↔ nameOf op = .ok n := by
  rw [decode_eq_ok, instrOf_name, and_iff_left rfl]

/-- A row of R65 with mask 0xF000 is what the decoder reads as its instruction. -/
theorem encodedAs_of_mask_F000 {n : Name} (hm : n.mask = 0xF000#16) : EncodedAs n.mask n.base (instrOf n) := fun op =>
  calc
    decode op = .ok (instrOf n op) ↔ nameOf op = .ok n := decode_eq_instrOf_iff
    _ ↔ topNibble op = topNibble n.base := ⟨topNibble_of_nameOf, nameOf_of_topNibble_base hm⟩
    _ ↔ op &&& n.mask = n.base &&& n.mask := by rw [hm, and_F000_eq_iff]
    _ ↔ op &&& n.mask = n.base := by rw [Laws.base_under_mask]

/-! ## JP -/

theorem exec_jp (addr : Addr) (s : State) : exec (.jp addr) s = .next (s.setPc (addrWord addr)) := rfl

/-- An address is already within the range of `PC`. -/
theorem setPc_addrWord_pc_toNat (s : State) (addr : Addr) : (s.setPc (addrWord addr)).pc.toNat = addr.toNat := by
  rw [State.setPc_pc_toNat, addrWord_toNat, Nat.mod_eq_of_lt addr.isLt]

/-- Settles O2: the row of `JP` is told by its top nibble, and the jump is a write of `PC`. -/
theorem jpSetsPc : Obligations.JpSetsPc :=
  ⟨encodedAs_of_mask_F000 (n := .jp) rfl, fun s addr =>
    ⟨s.setPc (addrWord addr), exec_jp addr s, setPc_addrWord_pc_toNat s addr, frame_setPc s _⟩⟩

end Sys2Proof.Machine
end

section
/-!
PROOFS. The rows of R65 in the `0x8` family (mask 0xF00F), told apart by the top and the bottom nibble: the decoder
reads exactly their words. From that, and from the one register write that these instructions are, the statements about
the loads, the addition and the logic that set no flag (R120 to R125).
-/
namespace Sys2Proof.Machine

/-! ## The `0x8` family and the mask 0xF00F -/

theorem fieldNibble_eq_iff {op b : Word} : fieldNibble op = fieldNibble b ↔ op.toNat % 16 = b.toNat % 16 := by
  rw [← BitVec.toNat_inj, fieldNibble_toNat, fieldNibble_toNat]

theorem and_F00F_eq_iff {op b : Word} :
    op &&& 0xF00F#16 = b &&& 0xF00F#16 ↔ topNibble op = topNibble b ∧ fieldNibble op = fieldNibble b := by
  rw [← BitVec.toNat_inj, and_F00F_toNat, and_F00F_toNat, topNibble_eq_iff, fieldNibble_eq_iff]
  omega

/-- The rows with mask 0xF00F are those of the `0x8` family. -/
theorem topNibble_base_of_mask_F00F {n : Name} (hm : n.mask = 0xF00F#16) : topNibble n.base = 0x8#4 := by
  revert hm
  cases n <;> decide

theorem nameOf_of_topNibble_8 {op : Word} (h : topNibble op = 0x8#4) : nameOf op = nameOf8 op := by
  have hcls : op ≠ 0x00E0#16 := by
    rintro rfl
    exact absurd h (by decide)
  have hret : op ≠ 0x00EE#16 := by
    rintro rfl
    exact absurd h (by decide)
  rw [nameOf, if_neg hcls, if_neg hret, h]
  rfl

/-- Within the family the bottom nibble names the row. -/
theorem nameOf8_eq_ok_iff {op : Word} {n : Name} (hm : n.mask = 0xF00F#16) :
    nameOf8 op = .ok n ↔ fieldNibble op = fieldNibble n.base := by
  constructor
  · intro h
    unfold nameOf8 at h
    split at h <;> cases h <;> assumption
  · intro h
    rw [nameOf8, h]
    cases n <;> cases hm <;> rfl

theorem nameOf_eq_ok_iff_of_mask_F00F {op : Word} {n : Name} (hm : n.mask = 0xF00F#16) :
    nameOf op = .ok n ↔ topNibble op = topNibble n.base ∧ fieldNibble op = fieldNibble n.base := by
  have hname (htop : topNibble op = topNibble n.base) : nameOf op = .ok n ↔ fieldNibble op = fieldNibble n.base := by
    rw [nameOf_of_topNibble_8 (htop.trans (topNibble_base_of_mask_F00F hm)), nameOf8_eq_ok_iff hm]
  exact ⟨fun h => ⟨topNibble_of_nameOf h, (hname (topNibble_of_nameOf h)).1 h⟩,
    fun ⟨htop, hbottom⟩ => (hname htop).2 hbottom⟩

/-- A row of R65 with mask 0xF00F is what the decoder reads as its instruction. -/
theorem encodedAs_of_mask_F00F {n : Name} (hm : n.mask = 0xF00F#16) : EncodedAs n.mask n.base (instrOf n) := fun op =>
  calc
    decode op = .ok (instrOf n op) ↔ nameOf op = .ok n := decode_eq_instrOf_iff
    _ ↔ topNibble op = topNibble n.base ∧ fieldNibble op = fieldNibble n.base := nameOf_eq_ok_iff_of_mask_F00F hm
    _ ↔ op &&& n.mask = n.base &&& n.mask := by rw [hm, and_F00F_eq_iff]
    _ ↔ op &&& n.mask = n.base := by rw [Laws.base_under_mask]

/-! ## Instructions that write one register -/

theorem exec_ldByte (x : Nibble) (kk : Byte) (s : State) : exec (.ldByte x kk) s = .next (s.writeV x kk) := rfl

theorem exec_addByte (x : Nibble) (kk : Byte) (s : State) :
    exec (.addByte x kk) s = .next (s.writeV x (s.readV x + kk)) := rfl

theorem exec_ldReg (x y : Nibble) (s : State) : exec (.ldReg x y) s = .next (s.writeV x (s.readV y)) := rfl

theorem exec_orReg (x y : Nibble) (s : State) :
    exec (.orReg x y) s = .next (s.writeV x (s.readV x ||| s.readV y)) := rfl

theorem exec_andReg (x y : Nibble) (s : State) :
    exec (.andReg x y) s = .next (s.writeV x (s.readV x &&& s.readV y)) := rfl

theorem exec_xorReg (x y : Nibble) (s : State) :
    exec (.xorReg x y) s = .next (s.writeV x (s.readV x ^^^ s.readV y)) := rfl

/-- An instruction that is one register write changes that register alone. -/
theorem writesReg_of_exec {i : Instr} {x : Nibble} {b : State → Byte} {f : State → Nat}
    (hexec : ∀ s, exec i s = .next (s.writeV x (b s))) (hb : ∀ s, (b s).toNat = f s) : WritesReg i x f := fun s =>
  ⟨s.writeV x (b s), hexec s, by rw [State.readV_writeV, if_pos rfl, hb], frame_writeV s x (b s)⟩

/-- Settles O7: the rows are told by their top nibble, and each instruction is one register write. -/
theorem immediateLoadAndAdd : Obligations.ImmediateLoadAndAdd :=
  ⟨encodedAs_of_mask_F000 (n := .ldByte) rfl, encodedAs_of_mask_F000 (n := .addByte) rfl,
    fun x kk => writesReg_of_exec (exec_ldByte x kk) fun _ => rfl,
    fun x kk => writesReg_of_exec (exec_addByte x kk) fun _ => BitVec.toNat_add ..⟩

/-- Settles O8: the rows are told by their top and bottom nibbles, and each instruction is one register write. -/
theorem registerCopyAndLogic : Obligations.RegisterCopyAndLogic :=
  ⟨encodedAs_of_mask_F00F (n := .ldReg) rfl, encodedAs_of_mask_F00F (n := .orReg) rfl,
    encodedAs_of_mask_F00F (n := .andReg) rfl, encodedAs_of_mask_F00F (n := .xorReg) rfl,
    fun x y => writesReg_of_exec (exec_ldReg x y) fun _ => rfl,
    fun x y => writesReg_of_exec (exec_orReg x y) fun _ => BitVec.toNat_or ..,
    fun x y => writesReg_of_exec (exec_andReg x y) fun _ => BitVec.toNat_and ..,
    fun x y => writesReg_of_exec (exec_xorReg x y) fun _ => BitVec.toNat_xor ..⟩

end Sys2Proof.Machine
end

section
/-!
PROOFS. The rows of R65 that are a single word (mask 0xFFFF): the decoder reads exactly that word. From that, and from
the write of the display that `CLS` is, the statement about clearing the display (R150).
-/
namespace Sys2Proof.Machine

/-! ## The `0x0` family and the mask 0xFFFF -/

theorem and_FFFF (op : Word) : op &&& 0xFFFF#16 = op := BitVec.and_allOnes

/-- The rows with mask 0xFFFF are those of the `0x0` family. -/
theorem topNibble_base_of_mask_FFFF {n : Name} (hm : n.mask = 0xFFFF#16) : topNibble n.base = 0x0#4 := by
  revert hm
  cases n <;> decide

theorem nameOf_base_of_mask_FFFF {n : Name} (hm : n.mask = 0xFFFF#16) : nameOf n.base = .ok n := by
  revert hm
  cases n <;> decide

/-- A named word of the `0x0` family is the word of its row. -/
theorem eq_base_of_nameOf_of_topNibble_0 {op : Word} {n : Name} (htop : topNibble op = 0x0#4)
    (h : nameOf op = .ok n) : op = n.base := by
  rw [nameOf, htop] at h
  split_ifs at h with hcls hret
  · cases h
    exact hcls
  · cases h
    exact hret
  · cases h

/-- A row of R65 with mask 0xFFFF is what the decoder reads as its instruction. -/
theorem encodedAs_of_mask_FFFF {n : Name} (hm : n.mask = 0xFFFF#16) : EncodedAs n.mask n.base (instrOf n) := fun op =>
  calc
    decode op = .ok (instrOf n op) ↔ nameOf op = .ok n := decode_eq_instrOf_iff
    _ ↔ op = n.base :=
      ⟨fun h => eq_base_of_nameOf_of_topNibble_0 ((topNibble_of_nameOf h).trans (topNibble_base_of_mask_FFFF hm)) h,
        fun h => h ▸ nameOf_base_of_mask_FFFF hm⟩
    _ ↔ op &&& n.mask = n.base := by rw [hm, and_FFFF]

/-! ## CLS -/

/-- A write of the display changes the display alone. -/
theorem frame_disp (s : State) (d : Vector Row 32) :
    SameRegsBut [] s { s with disp := d } ∧ SameBut [.disp] s { s with disp := d } :=
  ⟨sameRegs_of_v rfl [], by
    rw [sameBut_iff]
    simp [State.readMem]⟩

theorem exec_cls (s : State) : exec .cls s = .next { s with disp := Vector.replicate 32 0#64 } := rfl

/-- Settles O17: the row of `CLS` is a single word, and the instruction is one write of the display. -/
theorem clsClearsDisplay : Obligations.ClsClearsDisplay :=
  ⟨encodedAs_of_mask_FFFF (n := .cls) rfl, fun s =>
    ⟨{ s with disp := Vector.replicate 32 0#64 }, exec_cls s, fun _ h => Vector.getElem_replicate h,
      frame_disp s _⟩⟩

end Sys2Proof.Machine
end

section
/-!
PROOFS. The rows of R65 in the `0xE` and `0xF` families (mask 0xF0FF), told apart by the top nibble and the bottom byte:
the decoder reads exactly their words. From that, and from the one write that each timer transfer is, the statement about
the timers (R162, R164, R165).
-/
namespace Sys2Proof.Machine

/-! ## The `0xE` and `0xF` families and the mask 0xF0FF -/

theorem fieldByte_eq_iff {op b : Word} : fieldByte op = fieldByte b ↔ op.toNat % 256 = b.toNat % 256 := by
  rw [← BitVec.toNat_inj, fieldByte_toNat, fieldByte_toNat]

theorem and_F0FF_eq_iff {op b : Word} :
    op &&& 0xF0FF#16 = b &&& 0xF0FF#16 ↔ topNibble op = topNibble b ∧ fieldByte op = fieldByte b := by
  rw [← BitVec.toNat_inj, and_F0FF_toNat, and_F0FF_toNat, topNibble_eq_iff, fieldByte_eq_iff]
  omega

/-- The rows with mask 0xF0FF are those of the `0xE` and `0xF` families. -/
theorem topNibble_base_of_mask_F0FF {n : Name} (hm : n.mask = 0xF0FF#16) :
    topNibble n.base = 0xE#4 ∨ topNibble n.base = 0xF#4 := by
  revert hm
  cases n <;> decide

/-- The words of `CLS` and `RET`, which the decoder tests first, have top nibble 0. -/
theorem ne_cls_ret_of_topNibble_ne_zero {op : Word} (h : topNibble op ≠ 0x0#4) :
    op ≠ 0x00E0#16 ∧ op ≠ 0x00EE#16 := by
  constructor <;> rintro rfl <;> exact h rfl

theorem nameOf_of_topNibble_E {op : Word} (h : topNibble op = 0xE#4) : nameOf op = nameOfE op := by
  obtain ⟨hcls, hret⟩ := ne_cls_ret_of_topNibble_ne_zero (op := op) (by rw [h]; decide)
  rw [nameOf, if_neg hcls, if_neg hret, h]
  rfl

theorem nameOf_of_topNibble_F {op : Word} (h : topNibble op = 0xF#4) : nameOf op = nameOfF op := by
  obtain ⟨hcls, hret⟩ := ne_cls_ret_of_topNibble_ne_zero (op := op) (by rw [h]; decide)
  rw [nameOf, if_neg hcls, if_neg hret, h]
  rfl

theorem fieldByte_of_nameOfE {op : Word} {n : Name} (h : nameOfE op = .ok n) : fieldByte op = fieldByte n.base := by
  unfold nameOfE at h
  split at h <;> cases h <;> assumption

theorem fieldByte_of_nameOfF {op : Word} {n : Name} (h : nameOfF op = .ok n) : fieldByte op = fieldByte n.base := by
  unfold nameOfF at h
  split at h <;> cases h <;> assumption

/-- The base bits of a row are one of its words. -/
theorem nameOf_base (n : Name) : nameOf n.base = .ok n := by
  cases n <;> decide

/-- Within either family the bottom byte is all that the decoder reads. -/
theorem nameOf_eq_ok_iff_of_mask_F0FF {op : Word} {n : Name} (hm : n.mask = 0xF0FF#16) :
    nameOf op = .ok n ↔ topNibble op = topNibble n.base ∧ fieldByte op = fieldByte n.base := by
  have hname (htop : topNibble op = topNibble n.base) : nameOf op = .ok n ↔ fieldByte op = fieldByte n.base := by
    rcases topNibble_base_of_mask_F0FF hm with hbase | hbase
    · have hn : nameOfE n.base = .ok n := nameOf_of_topNibble_E hbase ▸ nameOf_base n
      rw [nameOf_of_topNibble_E (htop.trans hbase)]
      exact ⟨fieldByte_of_nameOfE, fun hbyte => by rw [← hn, nameOfE, nameOfE, hbyte]⟩
    · have hn : nameOfF n.base = .ok n := nameOf_of_topNibble_F hbase ▸ nameOf_base n
      rw [nameOf_of_topNibble_F (htop.trans hbase)]
      exact ⟨fieldByte_of_nameOfF, fun hbyte => by rw [← hn, nameOfF, nameOfF, hbyte]⟩
  exact ⟨fun h => ⟨topNibble_of_nameOf h, (hname (topNibble_of_nameOf h)).1 h⟩,
    fun ⟨htop, hbyte⟩ => (hname htop).2 hbyte⟩

/-- A row of R65 with mask 0xF0FF is what the decoder reads as its instruction. -/
theorem encodedAs_of_mask_F0FF {n : Name} (hm : n.mask = 0xF0FF#16) : EncodedAs n.mask n.base (instrOf n) := fun op =>
  calc
    decode op = .ok (instrOf n op) ↔ nameOf op = .ok n := decode_eq_instrOf_iff
    _ ↔ topNibble op = topNibble n.base ∧ fieldByte op = fieldByte n.base := nameOf_eq_ok_iff_of_mask_F0FF hm
    _ ↔ op &&& n.mask = n.base &&& n.mask := by rw [hm, and_F0FF_eq_iff]
    _ ↔ op &&& n.mask = n.base := by rw [Laws.base_under_mask]

/-! ## The timer transfers -/

/-- A write of the delay timer changes the delay timer alone. -/
theorem frame_dt (s : State) (b : Byte) :
    SameRegsBut [] s { s with dt := b } ∧ SameBut [.dt] s { s with dt := b } :=
  ⟨sameRegs_of_v rfl [], by
    rw [sameBut_iff]
    simp [State.readMem]⟩

/-- A write of the sound timer changes the sound timer alone. -/
theorem frame_st (s : State) (b : Byte) :
    SameRegsBut [] s { s with st := b } ∧ SameBut [.st] s { s with st := b } :=
  ⟨sameRegs_of_v rfl [], by
    rw [sameBut_iff]
    simp [State.readMem]⟩

theorem exec_ldVxDT (x : Nibble) (s : State) : exec (.ldVxDT x) s = .next (s.writeV x s.dt) := rfl

theorem exec_ldDTVx (x : Nibble) (s : State) : exec (.ldDTVx x) s = .next { s with dt := s.readV x } := rfl

theorem exec_ldSTVx (x : Nibble) (s : State) : exec (.ldSTVx x) s = .next { s with st := s.readV x } := rfl

/-- Settles O22: the rows are told by their top nibble and bottom byte; reading the delay timer is one register write, and
setting a timer is one write of that timer. -/
theorem timerTransfers : Obligations.TimerTransfers :=
  ⟨encodedAs_of_mask_F0FF (n := .ldVxDT) rfl, encodedAs_of_mask_F0FF (n := .ldDTVx) rfl,
    encodedAs_of_mask_F0FF (n := .ldSTVx) rfl,
    fun x => writesReg_of_exec (exec_ldVxDT x) fun _ => rfl,
    fun s x => ⟨{ s with dt := s.readV x }, exec_ldDTVx x s, rfl, frame_dt s _⟩,
    fun s x => ⟨{ s with st := s.readV x }, exec_ldSTVx x s, rfl, frame_st s _⟩⟩

end Sys2Proof.Machine
end

section
/-!
PROOFS. The rules of the key event: what a key reads after it, and what it leaves unchanged. From these, the statement
about `SetKey` (R179).
-/
namespace Sys2Proof.Machine

/-- Reading a key after one was set. -/
@[simp] theorem readKey_setKey (k j : Nibble) (b : Bool) (s : State) :
    (setKey k b s).readKey j = if j = k then b else s.readKey j := by
  simp only [State.readKey, setKey, Vector.getElem_set, BitVec.toNat_inj, eq_comm]

/-- Setting a key changes the keys alone. -/
theorem frame_setKey (k : Nibble) (b : Bool) (s : State) :
    SameRegsBut [] s (setKey k b s) ∧ SameBut [.key] s (setKey k b s) :=
  ⟨sameRegs_of_v rfl [], by
    rw [sameBut_iff]
    simp [setKey, State.readMem]⟩

theorem applyEvent_setKey (font : Font) (k : Nibble) (b : Bool) (s : State) :
    applyEvent font (.setKey k b) s = .next (setKey k b s) := rfl

/-- Settles O54: the event is one write of the keys, of which only the key set reads otherwise. -/
theorem setKeySetsOneKey : Obligations.SetKeySetsOneKey := fun font s k b =>
  ⟨setKey k b s, applyEvent_setKey font k b s, fun j => readKey_setKey k j b s, frame_setKey k b s⟩

end Sys2Proof.Machine
end

section
/-!
PROOFS. The whole decoder against the whole opcode table (R64 to R67): every row of R65 is what the decoder reads as its
instruction, and the words that no row has are those of the four families.
-/
namespace Sys2Proof.Machine

/-! ## Every row of R65 -/

theorem mask_cases (n : Name) :
    n.mask = 0xFFFF#16 ∨ n.mask = 0xF000#16 ∨ n.mask = 0xF00F#16 ∨ n.mask = 0xF0FF#16 := by
  cases n <;> decide

theorem encodedAs_row (n : Name) : EncodedAs n.mask n.base (instrOf n) := by
  rcases mask_cases n with hm | hm | hm | hm
  · exact encodedAs_of_mask_FFFF hm
  · exact encodedAs_of_mask_F000 hm
  · exact encodedAs_of_mask_F00F hm
  · exact encodedAs_of_mask_F0FF hm

theorem nameOf_eq_ok_iff {op : Word} {n : Name} : nameOf op = .ok n ↔ op &&& n.mask = n.base :=
  decode_eq_instrOf_iff.symm.trans (encodedAs_row n op)

/-- Settles O24: a word is decoded by a row of the table exactly when it is one of the row's words. -/
theorem decoderIsOpcodeTable : Obligations.DecoderIsOpcodeTable := fun _ _ => nameOf_eq_ok_iff

/-- A decoded word is one of the words of its instruction's row, and its fields are the instruction's. -/
theorem eq_instrOf_of_decode {op : Word} {i : Instr} (h : decode op = .ok i) :
    nameOf op = .ok i.name ∧ i = instrOf i.name op :=
  ((decode_eq_ok op i).1 h).imp_right Eq.symm

/-! ## The words that no row has -/

theorem nameOf_of_topNibble_0 {op : Word} (h : topNibble op = 0x0#4) :
    (∃ e, nameOf op = .error e) ↔ op ≠ 0x00E0#16 ∧ op ≠ 0x00EE#16 := by
  rw [nameOf, h]
  by_cases hcls : op = 0x00E0#16
  · simp [hcls]
  · by_cases hret : op = 0x00EE#16 <;> simp [hcls, hret]

/-- A top nibble that no family shares names a row. -/
theorem nameOf_ok_of_topNibble {op : Word} (h0 : topNibble op ≠ 0x0#4) (h8 : topNibble op ≠ 0x8#4)
    (hE : topNibble op ≠ 0xE#4) (hF : topNibble op ≠ 0xF#4) : ∃ n, nameOf op = .ok n := by
  obtain ⟨hcls, hret⟩ := ne_cls_ret_of_topNibble_ne_zero h0
  rw [nameOf, if_neg hcls, if_neg hret]
  split
  case h_1 h => exact absurd h h0
  case h_9 h => exact absurd h h8
  case h_15 h => exact absurd h hE
  case h_16 =>
    simp only [imp_false] at *
    bv_omega
  all_goals exact ⟨_, rfl⟩

theorem nameOf8_error_iff {op : Word} :
    (∃ e, nameOf8 op = .error e) ↔ op.toNat % 16 ∈ [8, 9, 10, 11, 12, 13, 15] := by
  rw [← fieldNibble_toNat, nameOf8]
  split
  case h_10 =>
    refine iff_of_true ⟨_, rfl⟩ ?_
    simp only [imp_false, List.mem_cons, List.not_mem_nil, or_false] at *
    bv_omega
  all_goals
    rename_i h
    exact iff_of_false (fun ⟨_, he⟩ => nomatch he) (h ▸ by decide)

theorem nameOfE_error_iff {op : Word} : (∃ e, nameOfE op = .error e) ↔ op.toNat % 256 ∉ [0x9E, 0xA1] := by
  rw [← fieldByte_toNat, nameOfE]
  split
  case h_3 =>
    refine iff_of_true ⟨_, rfl⟩ ?_
    simp only [imp_false, List.mem_cons, List.not_mem_nil, or_false] at *
    bv_omega
  all_goals
    rename_i h
    exact iff_of_false (fun ⟨_, he⟩ => nomatch he) (h ▸ by decide)

theorem nameOfF_error_iff {op : Word} : (∃ e, nameOfF op = .error e) ↔
    op.toNat % 256 ∉ [0x07, 0x0A, 0x15, 0x18, 0x1E, 0x29, 0x33, 0x55, 0x65] := by
  rw [← fieldByte_toNat, nameOfF]
  split
  case h_10 =>
    refine iff_of_true ⟨_, rfl⟩ ?_
    simp only [imp_false, List.mem_cons, List.not_mem_nil, or_false] at *
    bv_omega
  all_goals
    rename_i h
    exact iff_of_false (fun ⟨_, he⟩ => nomatch he) (h ▸ by decide)

theorem topNibble_eq_ofNat_iff {op : Word} {k : Nibble} : topNibble op = k ↔ op.toNat / 4096 = k.toNat := by
  rw [← BitVec.toNat_inj, topNibble_toNat]

/-- Settles O25: of the four families each refuses what its own match refuses, and no other word is refused. -/
theorem unrecognisedWordsAreFourFamilies : Obligations.UnrecognisedWordsAreFourFamilies := fun op => by
  simp only [decode_eq_error]
  by_cases h0 : topNibble op = 0x0#4
  · rw [nameOf_of_topNibble_0 h0]
    rw [topNibble_eq_ofNat_iff] at h0
    simp only [ne_eq, ← BitVec.toNat_inj, BitVec.toNat_ofNat] at *
    omega
  by_cases h8 : topNibble op = 0x8#4
  · rw [nameOf_of_topNibble_8 h8, nameOf8_error_iff]
    rw [topNibble_eq_ofNat_iff] at h8
    simp [h8]
  by_cases hE : topNibble op = 0xE#4
  · rw [nameOf_of_topNibble_E hE, nameOfE_error_iff]
    rw [topNibble_eq_ofNat_iff] at hE
    simp [hE]
  by_cases hF : topNibble op = 0xF#4
  · rw [nameOf_of_topNibble_F hF, nameOfF_error_iff]
    rw [topNibble_eq_ofNat_iff] at hF
    simp [hF]
  obtain ⟨n, hn⟩ := nameOf_ok_of_topNibble h0 h8 hE hF
  simp only [topNibble_eq_ofNat_iff, BitVec.toNat_ofNat] at h0 h8 hE hF
  simp [hn, h0, h8, hE, hF]

end Sys2Proof.Machine
end

section
/-!
PROOFS. The encoder against the decoder (R61, R76, R81), field by field: what a field of the word holds as a number, and
what is read back from a word whose operand fields were folded in. From these, the two round trips of instructions and
words, the truncation of operands, and the words that share a meaning.
-/
namespace Sys2Proof.Machine

open Laws

/-! ## A field as a number -/

/-- Where a field begins in the word (R61): the weight of its lowest bit. -/
def fieldWeight : Field → Nat
  | .x => 256
  | .y => 16
  | _ => 1

/-- The operand a word holds in a field (R61). -/
def readField (op : Word) (f : Field) : Nat := op.toNat / fieldWeight f % f.size

theorem readField_lt (op : Word) (f : Field) : readField op f < f.size :=
  Nat.mod_lt _ (by cases f <;> decide)

/-- A mask moved to its place sees the word moved the other way. -/
theorem and_shiftLeft_eq (w m : Word) (k : Nat) : w &&& (m <<< k) = ((w >>> k) &&& m) <<< k := by
  ext j hj
  by_cases hjk : j < k
  · simp [hjk]
  · simp [hjk, BitVec.getLsbD_eq_getElem hj, Nat.add_sub_of_le (Nat.not_lt.1 hjk)]

/-- A mask of the lowest bits reduces the number. -/
theorem and_lowMask_toNat (w : Word) {k : Nat} (hk : k ≤ 16) :
    (w &&& BitVec.ofNat 16 (2 ^ k - 1)).toNat = w.toNat % 2 ^ k := by
  have hle : 2 ^ k ≤ 2 ^ 16 := Nat.pow_le_pow_right (by decide) hk
  rw [BitVec.toNat_and, BitVec.toNat_ofNat, Nat.mod_eq_of_lt (by omega), Nat.and_two_pow_sub_one_eq_mod]

/-- A mask of four bits at a place holds the four bits that begin there. -/
theorem and_nibbleMask_toNat (w : Word) {k : Nat} (hk : k ≤ 12) :
    (w &&& (0x000F#16 <<< k)).toNat = w.toNat / 2 ^ k % 16 * 2 ^ k := by
  have hle : 2 ^ k ≤ 2 ^ 12 := Nat.pow_le_pow_right (by decide) hk
  have hdigit : ((w >>> k) &&& 0x000F#16).toNat = w.toNat / 2 ^ k % 16 := by
    rw [← Nat.shiftRight_eq_div_pow, ← BitVec.toNat_ushiftRight]
    exact and_lowMask_toNat (w >>> k) (k := 4) (by decide)
  rw [and_shiftLeft_eq, BitVec.toNat_shiftLeft, hdigit, Nat.shiftLeft_eq, Nat.mod_eq_of_lt]
  calc
    w.toNat / 2 ^ k % 16 * 2 ^ k < 16 * 2 ^ k :=
      Nat.mul_lt_mul_of_pos_right (Nat.mod_lt _ (by decide)) (Nat.two_pow_pos k)
    _ ≤ 2 ^ 16 := by omega

theorem and_fieldMask_toNat (w : Word) (f : Field) : (w &&& fieldMask f).toNat = readField w f * fieldWeight f := by
  cases f
  case addr => exact (and_lowMask_toNat w (k := 12) (by decide)).trans (by simp [readField, fieldWeight, Field.size])
  case x => exact and_nibbleMask_toNat w (k := 8) (by decide)
  case y => exact and_nibbleMask_toNat w (k := 4) (by decide)
  case byte => exact (and_lowMask_toNat w (k := 8) (by decide)).trans (by simp [readField, fieldWeight, Field.size])
  case nibble => exact (and_lowMask_toNat w (k := 4) (by decide)).trans (by simp [readField, fieldWeight, Field.size])
  case ignore => simp [readField, Field.size, Nat.mod_one, fieldMask]

/-- Every field takes its bits of the operand moved to its place (R76). -/
theorem encodeField_eq (f : Field) (v : Nat) :
    encodeField f v = BitVec.ofNat 16 (v * fieldWeight f) &&& fieldMask f := by
  have hshift (k : Nat) : BitVec.ofNat 16 v <<< k = BitVec.ofNat 16 (v * 2 ^ k) :=
    BitVec.eq_of_toNat_eq (by simp [Nat.shiftLeft_eq])
  cases f
  case x => exact congrArg (· &&& _) (hshift 8)
  case y => exact congrArg (· &&& _) (hshift 4)
  case ignore => exact BitVec.and_zero.symm
  all_goals rw [fieldWeight, Nat.mul_one, encodeField, fieldMask] <;> simp

/-- The bits an operand contributes, as a number: reduced to the field's size and moved to the field's place (R76). -/
theorem encodeField_toNat (f : Field) (v : Nat) : (encodeField f v).toNat = v % f.size * fieldWeight f := by
  rw [encodeField_eq, and_fieldMask_toNat, readField, BitVec.toNat_ofNat]
  congr 1
  cases f <;> simp only [Field.size, fieldWeight] <;> omega

/-- A field holds the operand that encodes as its bits. -/
theorem encodeField_readField (w : Word) (f : Field) : encodeField f (readField w f) = w &&& fieldMask f :=
  BitVec.eq_of_toNat_eq (by
    rw [encodeField_toNat, and_fieldMask_toNat, Nat.mod_eq_of_lt (readField_lt w f)])

/-- An operand counts modulo the size of its field (R76). -/
theorem encodeField_mod (f : Field) (v : Nat) : encodeField f (v % f.size) = encodeField f v :=
  BitVec.eq_of_toNat_eq (by rw [encodeField_toNat, encodeField_toNat, Nat.mod_mod])

/-- A word whose bits in a field are those of an operand holds that operand there. -/
theorem readField_of_and {w : Word} {f : Field} {v : Nat} (hv : v < f.size) (h : w &&& fieldMask f = encodeField f v) :
    readField w f = v := by
  have hmul : readField w f * fieldWeight f = v * fieldWeight f := by
    rw [← and_fieldMask_toNat, h, encodeField_toNat, Nat.mod_eq_of_lt hv]
  exact Nat.eq_of_mul_eq_mul_right (by cases f <;> decide) hmul

/-! ## Operand lists -/

theorem encodeOperands_mod (acc : Word) (fs : List Field) (vs : List Nat) :
    encodeOperands acc fs (List.zipWith (fun v f => v % Field.size f) vs fs) = encodeOperands acc fs vs := by
  induction fs generalizing acc vs with
  | nil => rfl
  | cons f fs ih =>
    cases vs with
    | nil => rfl
    | cons v vs => rw [List.zipWith_cons_cons, encodeOperands, encodeOperands, encodeField_mod, ih]

/-- Settles O32: operand by operand, the field sees the operand modulo its size. -/
theorem largeOperandsAreTruncated : Obligations.LargeOperandsAreTruncated := fun n ops _ =>
  (encodeOperands_mod n.base n.fields ops).symm

/-- Two fields share no bit of the word. -/
def DisjointFields (f g : Field) : Prop := fieldMask f &&& fieldMask g = 0#16

theorem encodeField_and_fieldMask_self (f : Field) (v : Nat) : encodeField f v &&& fieldMask f = encodeField f v := by
  obtain ⟨w, hw⟩ := Laws.encodeField_masked f v
  rw [hw, BitVec.and_assoc, BitVec.and_self]

theorem encodeField_and_fieldMask_of_disjoint {f g : Field} (h : DisjointFields f g) (v : Nat) :
    encodeField f v &&& fieldMask g = 0#16 := by
  obtain ⟨w, hw⟩ := Laws.encodeField_masked f v
  rw [hw, BitVec.and_assoc, h, BitVec.and_zero]

/-- Operands that fit are read back from disjoint fields that nothing else was put into. -/
theorem map_readField_encodeOperands {fs : List Field} {vs : List Nat} (hfs : fs.Pairwise DisjointFields)
    (hvs : operandsFit fs vs = true) {acc : Word} (hacc : ∀ f ∈ fs, acc &&& fieldMask f = 0#16) :
    fs.map (readField (encodeOperands acc fs vs)) = vs := by
  induction fs generalizing acc vs with
  | nil =>
    cases vs with
    | nil => rfl
    | cons => cases hvs
  | cons f fs ih =>
    cases vs with
    | nil => cases hvs
    | cons v vs =>
      obtain ⟨hv, hvs⟩ := (Laws.operandsFit_cons f fs v vs).1 hvs
      obtain ⟨hf, hfs⟩ := List.pairwise_cons.1 hfs
      obtain ⟨haccf, hacc⟩ := List.forall_mem_cons.1 hacc
      have hhead : encodeOperands acc (f :: fs) (v :: vs) &&& fieldMask f = encodeField f v := by
        rw [encodeOperands, Laws.encodeOperands_and fun g hg => (BitVec.and_comm ..).trans (hf g hg),
          BitVec.and_or_distrib_right, haccf, BitVec.zero_or, encodeField_and_fieldMask_self]
      rw [List.map_cons, readField_of_and hv hhead, encodeOperands, ih hfs hvs fun g hg => ?_]
      rw [BitVec.and_or_distrib_right, hacc g hg, encodeField_and_fieldMask_of_disjoint (hf g hg), BitVec.or_zero]

/-- The bits of the word that a list of fields can set. -/
def fieldsMask (fs : List Field) : Word := fs.foldr (fun f m => fieldMask f ||| m) 0#16

/-- Folding in what a word holds in the fields copies the word's bits there. -/
theorem encodeOperands_map_readField (acc w : Word) (fs : List Field) :
    encodeOperands acc fs (fs.map (readField w)) = acc ||| (w &&& fieldsMask fs) := by
  induction fs generalizing acc with
  | nil => simp [encodeOperands, fieldsMask]
  | cons f fs ih =>
    rw [List.map_cons, encodeOperands, encodeField_readField, ih, BitVec.or_assoc, ← BitVec.and_or_distrib_left]
    rfl

/-! ## The operands of an instruction -/

theorem fields_disjoint (n : Name) : n.fields.Pairwise DisjointFields := by
  cases n <;> simp [Name.fields, DisjointFields, fieldMask]

theorem base_and_fieldMask (n : Name) : ∀ f ∈ n.fields, n.base &&& fieldMask f = 0#16 := by
  cases n <;> decide

theorem operandsFit_operands (i : Instr) : operandsFit i.name.fields i.operands = true := by
  change OperandForm.Statement i
  cases i
  exacts [
    OperandForm.cls, OperandForm.ret, OperandForm.jp _, OperandForm.call _, OperandForm.seByte _ _,
    OperandForm.sneByte _ _, OperandForm.seReg _ _, OperandForm.ldByte _ _, OperandForm.addByte _ _,
    OperandForm.ldReg _ _, OperandForm.orReg _ _, OperandForm.andReg _ _, OperandForm.xorReg _ _,
    OperandForm.addReg _ _, OperandForm.subReg _ _, OperandForm.shr _ _, OperandForm.subn _ _, OperandForm.shl _ _,
    OperandForm.sneReg _ _, OperandForm.ldI _, OperandForm.jpV0 _, OperandForm.rnd _ _, OperandForm.drw _ _ _,
    OperandForm.skp _, OperandForm.sknp _, OperandForm.ldVxDT _, OperandForm.ldVxK _, OperandForm.ldDTVx _,
    OperandForm.ldSTVx _, OperandForm.addIVx _, OperandForm.ldF _, OperandForm.ldB _, OperandForm.ldMemVx _,
    OperandForm.ldVxMem _]

/-- The instruction built from a word has the operands the word holds in the fields of its name. -/
theorem operands_instrOf (n : Name) (op : Word) : (instrOf n op).operands = n.fields.map (readField op) := by
  cases n <;> simp [instrOf, Instr.operands, Name.fields, readField, fieldWeight, Field.size, fieldX_toNat,
    fieldY_toNat, fieldAddr_toNat, fieldByte_toNat, fieldNibble_toNat, Nat.mod_one]

/-- An instruction is told by its name and its operands. -/
theorem instrOf_eq_of_operands {i : Instr} {op : Word} (h : (instrOf i.name op).operands = i.operands) :
    instrOf i.name op = i := by
  cases i <;> simp_all [instrOf, Instr.name, Instr.operands, BitVec.toNat_inj]

theorem instrOf_encode (i : Instr) : instrOf i.name (encode i) = i := by
  refine instrOf_eq_of_operands ?_
  rw [operands_instrOf]
  exact map_readField_encodeOperands (fields_disjoint i.name) (operandsFit_operands i) (base_and_fieldMask i.name)

theorem nameOf_encode (i : Instr) : nameOf (encode i) = .ok i.name :=
  nameOf_eq_ok_iff.2 (Laws.encode_and_mask i.asm)

theorem decode_encode (i : Instr) : decode (encode i) = .ok i :=
  (decode_eq_ok _ i).2 ⟨nameOf_encode i, instrOf_encode i⟩

theorem decodeBytes_bytesOfWord (w : Word) (rest : List Byte) (i : Instr) (h : decode w = .ok i) :
    decodeBytes (bytesOfWord w ++ rest) = .ok (i, rest) := by
  simp only [bytesOfWord, List.cons_append, List.nil_append, decodeBytes, wordOfBytes_bytesOfWord, h]

/-- Settles O26: the name of an encoded word is told by its base bits, its operands are read back from disjoint
fields. -/
theorem decodeEncodeRoundTrip : Obligations.DecodeEncodeRoundTrip := fun i =>
  ⟨decode_encode i, fun rest => decodeBytes_bytesOfWord (encode i) rest i (decode_encode i)⟩

/-! ## The canonical word -/

/-- The base bits and the fields of a row fill the word, but for the bottom nibble of the two rows that leave it out. -/
theorem mask_or_fieldsMask (n : Name) : n.mask ||| fieldsMask n.fields =
    if topNibble n.base = 5#4 ∨ topNibble n.base = 9#4 then 0xFFF0#16 else 0xFFFF#16 := by
  cases n <;> decide

theorem encode_of_decode {op : Word} {i : Instr} (h : decode op = .ok i) :
    encode i = op &&& (i.name.mask ||| fieldsMask i.name.fields) := by
  obtain ⟨hname, hi⟩ := eq_instrOf_of_decode h
  calc
    encode i = encodeOperands i.name.base i.name.fields (i.name.fields.map (readField op)) := by
      rw [← operands_instrOf, ← hi]
      rfl
    _ = i.name.base ||| (op &&& fieldsMask i.name.fields) := encodeOperands_map_readField ..
    _ = op &&& (i.name.mask ||| fieldsMask i.name.fields) := by
      rw [← nameOf_eq_ok_iff.1 hname, BitVec.and_or_distrib_left]

/-- Settles O27: encoding copies the word's bits under the mask and the fields of its row. -/
theorem encodeDecodeIsCanonicalWord : Obligations.EncodeDecodeIsCanonicalWord := fun op i h => by
  obtain ⟨hname, -⟩ := eq_instrOf_of_decode h
  rw [encode_of_decode h, mask_or_fieldsMask, ← topNibble_of_nameOf hname]
  split
  · rfl
  · exact and_FFFF op

/-! ## The words that share a meaning -/

/-- Four nibbles as a word. -/
theorem nibbles_toNat (t x y n : Nibble) :
    (t ++ x ++ y ++ n : Word).toNat = t.toNat * 4096 + x.toNat * 256 + y.toNat * 16 + n.toNat := by
  rw [BitVec.toNat_append, BitVec.toNat_append, BitVec.toNat_append, ← Nat.shiftLeft_add_eq_or_of_lt n.isLt,
    ← Nat.shiftLeft_add_eq_or_of_lt y.isLt, ← Nat.shiftLeft_add_eq_or_of_lt x.isLt]
  simp only [Nat.shiftLeft_eq]
  omega

theorem topNibble_nibbles (t x y n : Nibble) : topNibble (t ++ x ++ y ++ n) = t := by
  rw [← BitVec.toNat_inj, topNibble_toNat, nibbles_toNat]
  omega

theorem fieldX_nibbles (t x y n : Nibble) : fieldX (t ++ x ++ y ++ n) = x := by
  rw [← BitVec.toNat_inj, fieldX_toNat, nibbles_toNat]
  omega

theorem fieldY_nibbles (t x y n : Nibble) : fieldY (t ++ x ++ y ++ n) = y := by
  rw [← BitVec.toNat_inj, fieldY_toNat, nibbles_toNat]
  omega

theorem nibbles_and_FFF0 (t x y : Nibble) : (t ++ x ++ y ++ 0#4 : Word) &&& 0xFFF0#16 = t ++ x ++ y ++ 0#4 := by
  have hlow : (t ++ x ++ y ++ 0#4 : Word) &&& fieldMask .nibble = 0#16 := by
    rw [← BitVec.toNat_inj, and_fieldMask_toNat, readField, nibbles_toNat]
    simp only [fieldWeight, Field.size, BitVec.toNat_ofNat]
    omega
  calc
    (t ++ x ++ y ++ 0#4 : Word) &&& 0xFFF0#16
      = ((t ++ x ++ y ++ 0#4) &&& 0xFFF0#16) ||| ((t ++ x ++ y ++ 0#4) &&& fieldMask .nibble) := by
        rw [hlow, BitVec.or_zero]
    _ = (t ++ x ++ y ++ 0#4) &&& 0xFFFF#16 := by
        rw [← BitVec.and_or_distrib_left]
        rfl
    _ = t ++ x ++ y ++ 0#4 := and_FFFF _

theorem decode_5xyN (x y n : Nibble) : decode (0x5#4 ++ x ++ y ++ n) = .ok (.seReg x y) := by
  have hname : nameOf (0x5#4 ++ x ++ y ++ n) = .ok .seReg :=
    nameOf_of_topNibble_base rfl (topNibble_nibbles 0x5#4 x y n)
  rw [decode_eq_instrOf_iff.2 hname, instrOf, fieldX_nibbles, fieldY_nibbles]

theorem decode_9xyN (x y n : Nibble) : decode (0x9#4 ++ x ++ y ++ n) = .ok (.sneReg x y) := by
  have hname : nameOf (0x9#4 ++ x ++ y ++ n) = .ok .sneReg :=
    nameOf_of_topNibble_base rfl (topNibble_nibbles 0x9#4 x y n)
  rw [decode_eq_instrOf_iff.2 hname, instrOf, fieldX_nibbles, fieldY_nibbles]

theorem encode_seReg (x y : Nibble) : encode (.seReg x y) = 0x5#4 ++ x ++ y ++ 0#4 := by
  rw [encodeDecodeIsCanonicalWord _ _ (decode_5xyN x y 0#4), if_pos (.inl (topNibble_nibbles 0x5#4 x y 0#4)),
    nibbles_and_FFF0]

theorem encode_sneReg (x y : Nibble) : encode (.sneReg x y) = 0x9#4 ++ x ++ y ++ 0#4 := by
  rw [encodeDecodeIsCanonicalWord _ _ (decode_9xyN x y 0#4), if_pos (.inr (topNibble_nibbles 0x9#4 x y 0#4)),
    nibbles_and_FFF0]

/-- Words that decode alike execute alike. -/
theorem execute_congr {op op' : Word} (h : decode op = decode op') (s : State) : execute op s = execute op' s := by
  rw [execute, execute, h]

/-- Settles O28: the decoder reads the same instruction whatever the bottom nibble, and its encoding is the word with
that nibble at 0. -/
theorem skipAliasesExecuteAlike : Obligations.SkipAliasesExecuteAlike := fun x y n s =>
  ⟨decode_5xyN x y n, decode_9xyN x y n, encode_seReg x y, encode_sneReg x y,
    execute_congr ((decode_5xyN x y n).trans (decode_5xyN x y 0#4).symm) s,
    execute_congr ((decode_9xyN x y n).trans (decode_9xyN x y 0#4).symm) s⟩

/-- Settles O23: each word is a closed term, which the decoder evaluates. -/
theorem specWordsDecode : Obligations.SpecWordsDecode := by
  unfold Obligations.SpecWordsDecode
  decide

end Sys2Proof.Machine
end

section
/-!
PROOFS. The assembler and the disassembler are inverse (R73 to R76, R81, R84): the numerals and the register tokens
that the disassembler writes, the tokens of an instruction's text, what the extractor collects from them, and the name
that the normalizer gives them.
-/
namespace Sys2Proof.Machine

/-! ## Numerals -/

theorem isNumeric_iff {t : Text} : isNumeric t = true ↔ t ≠ [] ∧ ∀ c ∈ t, isDigit c = true := by
  simp [isNumeric]

theorem digitChar_toNat {d : Nat} (hd : d < 10) : (digitChar d).toNat = 48 + d := by
  interval_cases d <;> rfl

theorem isDigit_digitChar {d : Nat} (hd : d < 10) : isDigit (digitChar d) = true := by
  interval_cases d <;> rfl

theorem isNumeric_singleton {d : Nat} (hd : d < 10) : isNumeric [digitChar d] = true := by
  simp [isNumeric, isDigit_digitChar hd]

theorem isNumeric_append {t u : Text} (ht : isNumeric t = true) (hu : isNumeric u = true) :
    isNumeric (t ++ u) = true := by
  simp_all [isNumeric]

theorem decimalValue_append_digitChar (t : Text) {d : Nat} (hd : d < 10) :
    decimalValue (t ++ [digitChar d]) = 10 * decimalValue t + d := by
  simp [decimalValue, digitChar_toNat hd]

/-- The digits written for a number that the fuel covers make a numeral with the number's value. -/
theorem decimalFuel_spec {f n : Nat} (hn : n < 10 ^ (f + 1)) :
    isNumeric (decimalFuel (f + 1) n) = true ∧ decimalValue (decimalFuel (f + 1) n) = n := by
  induction f generalizing n with
  | zero =>
    have hn : n < 10 := by simpa using hn
    rw [decimalFuel, if_pos hn]
    exact ⟨isNumeric_singleton hn, by simpa [decimalValue] using decimalValue_append_digitChar [] hn⟩
  | succ f ih =>
    rw [decimalFuel]
    split
    case isTrue hlt =>
      exact ⟨isNumeric_singleton hlt, by simpa [decimalValue] using decimalValue_append_digitChar [] hlt⟩
    case isFalse =>
      have hdigit : n % 10 < 10 := Nat.mod_lt _ (by decide)
      obtain ⟨hnum, hval⟩ := ih (n := n / 10) (by omega)
      refine ⟨isNumeric_append hnum (isNumeric_singleton hdigit), ?_⟩
      rw [decimalValue_append_digitChar _ hdigit, hval]
      omega

theorem isNumeric_decimalText {n : Nat} (hn : n < 100000) : isNumeric (decimalText n) = true :=
  (decimalFuel_spec (f := 4) hn).1

theorem decimalValue_decimalText {n : Nat} (hn : n < 100000) : decimalValue (decimalText n) = n :=
  (decimalFuel_spec (f := 4) hn).2

theorem parseOperand_decimalText {n : Nat} (hn : n < 65536) : parseOperand (decimalText n) = .ok n := by
  have hn' : n < 100000 := by omega
  rw [parseOperand, isNumeric_decimalText hn', decimalValue_decimalText hn']
  simp [hn]

/-! ## Tokens -/

/-- A text that the tokenizer gives back whole. -/
def IsToken (t : Text) : Prop := t ≠ [] ∧ SeparatorFree t

theorem tokenize_of_isToken {t : Text} (h : IsToken t) : tokenize t = [t] := by
  obtain ⟨hne, hfree⟩ := h
  rw [tokenize, tokenizeFrom_of_separatorFree hfree, List.nil_append, consToken_of_ne_nil hne]

theorem isSeparator_of_isDigit {c : Char} (h : isDigit c = true) : ¬ isSeparator c = true := by
  rw [isSeparator_eq_true_iff]
  rintro (rfl | rfl) <;> exact absurd h (by decide)

theorem isToken_of_isNumeric {t : Text} (h : isNumeric t = true) : IsToken t := by
  obtain ⟨hne, hdigit⟩ := isNumeric_iff.1 h
  exact ⟨hne, fun c hc => isSeparator_of_isDigit (hdigit c hc)⟩

theorem isToken_decimalText {n : Nat} (hn : n < 100000) : IsToken (decimalText n) :=
  isToken_of_isNumeric (isNumeric_decimalText hn)

theorem isToken_regText (x : Nibble) : IsToken (regText x) := by
  obtain ⟨-, hfree⟩ := isToken_decimalText (n := x.toNat) (by omega)
  exact ⟨List.cons_ne_nil _ _, List.forall_mem_cons.2 ⟨by decide, hfree⟩⟩

theorem tokenize_append_space (a b : Text) : tokenize (a ++ ' ' :: b) = tokenize a ++ tokenize b :=
  tokenizeFrom_append_separator (by decide) [] a b

theorem tokenize_append_comma (a b : Text) : tokenize (a ++ ',' :: b) = tokenize a ++ tokenize b :=
  tokenizeFrom_append_separator (by decide) [] a b

theorem tokenize_space (b : Text) : tokenize (' ' :: b) = tokenize b := tokenize_append_space [] b

theorem tokenize_form1 {m : String} {a : Text} (hm : IsToken m.toList) (ha : IsToken a) :
    tokenize (form1 m a) = [m.toList, a] := by
  rw [form1, tokenize_append_space, tokenize_of_isToken hm, tokenize_of_isToken ha, List.singleton_append]

theorem tokenize_form2 {m : String} {a b : Text} (hm : IsToken m.toList) (ha : IsToken a) (hb : IsToken b) :
    tokenize (form2 m a b) = [m.toList, a, b] := by
  rw [form2, tokenize_append_comma, tokenize_space, ← form1, tokenize_form1 hm ha, tokenize_of_isToken hb]
  rfl

theorem tokenize_form3 {m : String} {a b c : Text} (hm : IsToken m.toList) (ha : IsToken a) (hb : IsToken b)
    (hc : IsToken c) : tokenize (form3 m a b c) = [m.toList, a, b, c] := by
  rw [form3, tokenize_append_comma, tokenize_space, tokenize_form2 hm ha hb, tokenize_of_isToken hc]
  rfl

/-! ## The extractor -/

theorem extractToken_regText (x : Nibble) : extractToken [] (regText x) = .ok [x.toNat] := by
  simp only [extractToken, labelAddress, regText, parseOperand_decimalText (n := x.toNat) (by omega)]

theorem extractToken_decimalText {n : Nat} (hn : n < 65536) : extractToken [] (decimalText n) = .ok [n] := by
  have hnum := isNumeric_decimalText (n := n) (by omega)
  have hparse := parseOperand_decimalText hn
  unfold extractToken
  simp only [labelAddress]
  split
  case h_1 digits h =>
    rw [h] at hnum
    exact absurd hnum (by simp [isNumeric, isDigit])
  case h_2 => simp only [hnum, if_true, hparse]

theorem extractOperands_cons {t : Text} {ts : List Text} {a b : List Nat} (ht : extractToken [] t = .ok a)
    (hts : extractOperands [] ts = .ok b) : extractOperands [] (t :: ts) = .ok (a ++ b) := by
  rw [extractOperands, ht, hts]

/-! ## The normalizer -/

/-- A marker that looks for no digit. -/
def Marker.Wordy : Marker → Bool
  | .starts p => p.toList.head?.any fun c => !isDigit c
  | _ => true

theorem normRows_wordy : ∀ r ∈ normRows, r.first.Wordy = true ∧ r.second.Wordy = true := by decide

/-- To the markers of the decision table every numeral looks like 0. -/
theorem markerFits_of_isNumeric {m : Marker} (hm : m.Wordy = true) {t : Text} (ht : isNumeric t = true) :
    markerFits m (some t) = markerFits m (some ['0']) := by
  cases m
  case starts p =>
    obtain ⟨hne, hdigit⟩ := isNumeric_iff.1 ht
    obtain ⟨d, t, rfl⟩ := List.exists_cons_of_ne_nil hne
    have hd : isDigit d = true := hdigit d List.mem_cons_self
    cases hp : p.toList with
    | nil => simp [Marker.Wordy, hp] at hm
    | cons c p =>
      have hc : isDigit c = false := by simpa [Marker.Wordy, hp] using hm
      have hcd : c ≠ d := by rintro rfl; simp [hc] at hd
      have hc0 : c ≠ '0' := by rintro rfl; exact absurd hc (by decide)
      simp [markerFits, hp, List.isPrefixOf, beq_false_of_ne hcd, beq_false_of_ne hc0]
  case numeric => rw [markerFits, ht]; rfl
  all_goals rfl

theorem normalize_numeric_first (m : Text) {t : Text} (ht : isNumeric t = true) :
    normalize [m, t] = normalize [m, ['0']] := by
  refine congrArg (Option.map NormRow.name) (List.find?_congr fun r hr => ?_)
  obtain ⟨hfirst, -⟩ := normRows_wordy r hr
  exact congrArg (fun b => _ && b && _) (markerFits_of_isNumeric hfirst ht)

theorem normalize_numeric_second (m a : Text) {t : Text} (ht : isNumeric t = true) :
    normalize [m, a, t] = normalize [m, a, ['0']] := by
  refine congrArg (Option.map NormRow.name) (List.find?_congr fun r hr => ?_)
  obtain ⟨-, hsecond⟩ := normRows_wordy r hr
  exact congrArg (fun b => _ && b) (markerFits_of_isNumeric hsecond ht)

/-! ## The line of an instruction -/

/-- A token with the operands that the extractor collects from it. -/
def Collects (t : Text) (vs : List Nat) : Prop := IsToken t ∧ extractToken [] t = .ok vs

theorem collects_regText (x : Nibble) : Collects (regText x) [x.toNat] := ⟨isToken_regText x, extractToken_regText x⟩

theorem collects_decimalText {n : Nat} (hn : n < 65536) : Collects (decimalText n) [n] :=
  ⟨isToken_decimalText (by omega), extractToken_decimalText hn⟩

/-- A word of the disassembler's text that is neither a register nor a numeral. -/
def isWord (t : Text) : Bool := !t.isEmpty && t.all (fun c => !isSeparator c && !isDigit c && c != 'V')

/-- From such a word nothing is collected. -/
theorem collects_word {t : Text} (ht : isWord t = true) : Collects t [] := by
  obtain ⟨c, t, rfl⟩ := List.exists_cons_of_ne_nil (l := t) (by rintro rfl; cases ht)
  have hall : ∀ d ∈ c :: t, isSeparator d = false ∧ isDigit d = false ∧ d ≠ 'V' := by
    simpa [isWord, and_assoc] using ht
  obtain ⟨-, hdigit, hV⟩ := hall c List.mem_cons_self
  refine ⟨⟨List.cons_ne_nil c t, fun d hd => by simp [(hall d hd).1]⟩, ?_⟩
  unfold extractToken
  simp only [labelAddress]
  split
  case h_1 h =>
    cases h
    exact absurd rfl hV
  case h_2 => simp [isNumeric, hdigit]

/-- Tokens with what the extractor collects from each. -/
theorem extractOperands_of_collects {ts : List Text} {vss : List (List Nat)} (h : List.Forall₂ Collects ts vss) :
    extractOperands [] ts = .ok vss.flatten := by
  induction h with
  | nil => rfl
  | cons ht _ ih => exact extractOperands_cons ht.2 ih

theorem assembleLine_eq_encode {i : Instr} {line : Text} {ts : List Text} {vss : List (List Nat)}
    (hts : tokenize line = ts) (hvs : List.Forall₂ Collects ts vss) (hops : vss.flatten = i.operands)
    (hname : normalize ts = some i.name) : assembleLine [] line = .ok (encode i) := by
  have hlen : i.operands.length = i.name.fields.length := by cases i <;> rfl
  rw [assembleLine, hts, extractOperands_of_collects hvs, hops, hname]
  exact if_pos hlen

section
variable {i : Instr} {m : String} {a b c : Text} {va vb vc : List Nat}

theorem assembleLine_form0 (hm : isWord m.toList = true) (hops : [] = i.operands)
    (hname : normalize [m.toList] = some i.name) : assembleLine [] (form0 m) = .ok (encode i) :=
  have hm := collects_word hm
  assembleLine_eq_encode (tokenize_of_isToken hm.1) (.cons hm .nil) hops hname

theorem assembleLine_form1 (hm : isWord m.toList = true) (ha : Collects a va) (hops : va ++ [] = i.operands)
    (hname : normalize [m.toList, a] = some i.name) : assembleLine [] (form1 m a) = .ok (encode i) :=
  have hm := collects_word hm
  assembleLine_eq_encode (tokenize_form1 hm.1 ha.1) (.cons hm (.cons ha .nil)) hops hname

theorem assembleLine_form2 (hm : isWord m.toList = true) (ha : Collects a va) (hb : Collects b vb)
    (hops : va ++ (vb ++ []) = i.operands) (hname : normalize [m.toList, a, b] = some i.name) :
    assembleLine [] (form2 m a b) = .ok (encode i) :=
  have hm := collects_word hm
  assembleLine_eq_encode (tokenize_form2 hm.1 ha.1 hb.1) (.cons hm (.cons ha (.cons hb .nil))) hops hname

theorem assembleLine_form3 (hm : isWord m.toList = true) (ha : Collects a va) (hb : Collects b vb)
    (hc : Collects c vc) (hops : va ++ (vb ++ (vc ++ [])) = i.operands)
    (hname : normalize [m.toList, a, b, c] = some i.name) : assembleLine [] (form3 m a b c) = .ok (encode i) :=
  have hm := collects_word hm
  assembleLine_eq_encode (tokenize_form3 hm.1 ha.1 hb.1 hc.1) (.cons hm (.cons ha (.cons hb (.cons hc .nil)))) hops
    hname

end

/-- Each instruction's line is a word and its operand tokens: registers, numerals and words. -/
theorem assembleLine_instrText (i : Instr) : assembleLine [] (instrText i) = .ok (encode i) := by
  have reg := collects_regText
  have word {t} := collects_word (t := t)
  have addr (a : Addr) := collects_decimalText (n := a.toNat) (by omega)
  have byte (b : Byte) := collects_decimalText (n := b.toNat) (by omega)
  have nibble (n : Nibble) := collects_decimalText (n := n.toNat) (by omega)
  have addrFirst (m) (a : Addr) := normalize_numeric_first m (isNumeric_decimalText (n := a.toNat) (by omega))
  have addrSecond (m t) (a : Addr) := normalize_numeric_second m t (isNumeric_decimalText (n := a.toNat) (by omega))
  have byteSecond (m t) (b : Byte) := normalize_numeric_second m t (isNumeric_decimalText (n := b.toNat) (by omega))
  cases i with
  | cls => exact assembleLine_form0 rfl rfl rfl
  | ret => exact assembleLine_form0 rfl rfl rfl
  | jp a => exact assembleLine_form1 rfl (addr a) rfl (addrFirst _ a)
  | call a => exact assembleLine_form1 rfl (addr a) rfl (addrFirst _ a)
  | seByte x kk => exact assembleLine_form2 rfl (reg x) (byte kk) rfl (byteSecond _ _ kk)
  | sneByte x kk => exact assembleLine_form2 rfl (reg x) (byte kk) rfl (byteSecond _ _ kk)
  | seReg x y => exact assembleLine_form2 rfl (reg x) (reg y) rfl rfl
  | ldByte x kk => exact assembleLine_form2 rfl (reg x) (byte kk) rfl (byteSecond _ _ kk)
  | addByte x kk => exact assembleLine_form2 rfl (reg x) (byte kk) rfl (byteSecond _ _ kk)
  | ldReg x y => exact assembleLine_form2 rfl (reg x) (reg y) rfl rfl
  | orReg x y => exact assembleLine_form2 rfl (reg x) (reg y) rfl rfl
  | andReg x y => exact assembleLine_form2 rfl (reg x) (reg y) rfl rfl
  | xorReg x y => exact assembleLine_form2 rfl (reg x) (reg y) rfl rfl
  | addReg x y => exact assembleLine_form2 rfl (reg x) (reg y) rfl rfl
  | subReg x y => exact assembleLine_form2 rfl (reg x) (reg y) rfl rfl
  | shr x y => exact assembleLine_form2 rfl (reg x) (reg y) rfl rfl
  | subn x y => exact assembleLine_form2 rfl (reg x) (reg y) rfl rfl
  | shl x y => exact assembleLine_form2 rfl (reg x) (reg y) rfl rfl
  | sneReg x y => exact assembleLine_form2 rfl (reg x) (reg y) rfl rfl
  | ldI a => exact assembleLine_form2 rfl (word rfl) (addr a) rfl (addrSecond _ _ a)
  | jpV0 a => exact assembleLine_form2 rfl (reg 0#4) (addr a) rfl (addrSecond _ _ a)
  | rnd x kk => exact assembleLine_form2 rfl (reg x) (byte kk) rfl (byteSecond _ _ kk)
  | drw x y n => exact assembleLine_form3 rfl (reg x) (reg y) (nibble n) rfl rfl
  | skp x => exact assembleLine_form1 rfl (reg x) rfl rfl
  | sknp x => exact assembleLine_form1 rfl (reg x) rfl rfl
  | ldVxDT x => exact assembleLine_form2 rfl (reg x) (word rfl) rfl rfl
  | ldVxK x => exact assembleLine_form2 rfl (reg x) (word rfl) rfl rfl
  | ldDTVx x => exact assembleLine_form2 rfl (word rfl) (reg x) rfl rfl
  | ldSTVx x => exact assembleLine_form2 rfl (word rfl) (reg x) rfl rfl
  | addIVx x => exact assembleLine_form2 rfl (word rfl) (reg x) rfl rfl
  | ldF x => exact assembleLine_form2 rfl (word rfl) (reg x) rfl rfl
  | ldB x => exact assembleLine_form2 rfl (word rfl) (reg x) rfl rfl
  | ldMemVx x => exact assembleLine_form2 rfl (word rfl) (reg x) rfl rfl
  | ldVxMem x => exact assembleLine_form2 rfl (reg x) (word rfl) rfl rfl

theorem nameFromHex_encode (i : Instr) : nameFromHex (encode i) = .ok i.name := by
  rw [nameFromHex, nameOf_encode]

theorem disassemble_encode (i : Instr) : disassemble (encode i) = .ok (instrText i) := by
  rw [disassemble, decode_encode]

/-- Settles O29: the line's tokens give back the name and the operands, and the word decodes to the instruction. -/
theorem assemblerRoundTrip : Obligations.AssemblerRoundTrip := fun i =>
  ⟨assembleLine_instrText i, nameFromHex_encode i, disassemble_encode i⟩

end Sys2Proof.Machine
end

section
/-!
PROOFS. The label pass of the assembler (R77): one equation per class of line, the lines it queues, and the address it
records for a label.
-/
namespace Sys2Proof.Machine

/-! ## The label table -/

theorem labelAddress_append (n : Text) (ls ms : LabelTable) :
    labelAddress n (ls ++ ms) = (labelAddress n ls).or (labelAddress n ms) := by
  induction ls with
  | nil => rfl
  | cons l ls ih =>
    simp only [List.cons_append, labelAddress]
    split
    · rfl
    · exact ih

theorem labelAddress_singleton (n : Text) (a : Nat) : labelAddress n [(n, a)] = some a := by
  simp [labelAddress]

/-! ## One line -/

/-- A line that is queued for assembly. -/
def isInstruction (l : Text) : Bool := classify l == .instruction

theorem classify_colon (name : Text) : classify (':' :: name) = .label name := by
  simp [classify]

/-- A label line records the current address under its name, which is new. -/
theorem preprocess_cons_label {addr : Nat} {labels out : LabelTable} {l n : Text} {ls queue : List Text}
    (hl : classify l = .label n) (h : preprocess addr labels (l :: ls) = .ok (out, queue)) :
    labelAddress n labels = none ∧ preprocess addr (labels ++ [(n, addr)]) ls = .ok (out, queue) := by
  simp only [preprocess, hl] at h
  split at h
  case isTrue => cases h
  case isFalse hn => exact ⟨by simpa using hn, h⟩

/-- An instruction line is queued and moves the address on; any other line leaves the queue and the address alone and
keeps what the label table has. -/
theorem preprocess_cons_cases {addr : Nat} {labels out : LabelTable} {l : Text} {ls queue : List Text}
    (h : preprocess addr labels (l :: ls) = .ok (out, queue)) :
    (isInstruction l = true ∧ ∃ q, queue = l :: q ∧ preprocess (addr + 2) labels ls = .ok (out, q)) ∨
    (isInstruction l = false ∧ ∃ labels', (∀ n a, labelAddress n labels = some a → labelAddress n labels' = some a) ∧
      preprocess addr labels' ls = .ok (out, queue)) := by
  cases hl : classify l with
  | comment => exact .inr ⟨by simp [isInstruction, hl], labels, fun _ _ hn => hn, by simpa [preprocess, hl] using h⟩
  | blank => exact .inr ⟨by simp [isInstruction, hl], labels, fun _ _ hn => hn, by simpa [preprocess, hl] using h⟩
  | label n =>
    refine .inr ⟨by simp [isInstruction, hl], _, fun m a hm => ?_, (preprocess_cons_label hl h).2⟩
    rw [labelAddress_append, hm, Option.some_or]
  | instruction =>
    refine .inl ⟨by simp [isInstruction, hl], ?_⟩
    simp only [preprocess, hl] at h
    cases hrest : preprocess (addr + 2) labels ls with
    | error e => simp [hrest] at h
    | ok r =>
      simp only [hrest] at h
      cases h
      exact ⟨_, rfl, rfl⟩

/-! ## A whole source -/

/-- The queue is the instruction lines. -/
theorem preprocess_queue {addr : Nat} {labels out : LabelTable} {source queue : List Text}
    (h : preprocess addr labels source = .ok (out, queue)) : queue = source.filter isInstruction := by
  induction source generalizing addr labels queue with
  | nil =>
    cases h
    rfl
  | cons l ls ih =>
    obtain ⟨hl, q, rfl, hrest⟩ | ⟨hl, _, -, hrest⟩ := preprocess_cons_cases h
    · rw [List.filter_cons_of_pos hl, ih hrest]
    · rw [List.filter_cons_of_neg (by simp [hl]), ih hrest]

/-- A recorded label keeps its address. -/
theorem labelAddress_preprocess {addr a : Nat} {labels out : LabelTable} {n : Text} {source queue : List Text}
    (h : preprocess addr labels source = .ok (out, queue)) (hn : labelAddress n labels = some a) :
    labelAddress n out = some a := by
  induction source generalizing addr labels queue with
  | nil =>
    cases h
    exact hn
  | cons l ls ih =>
    obtain ⟨-, q, -, hrest⟩ | ⟨-, _, hkeep, hrest⟩ := preprocess_cons_cases h
    · exact ih hrest hn
    · exact ih hrest (hkeep n a hn)

/-- A label is recorded at the address reached by the instruction lines before it. -/
theorem labelAddress_of_label_line {addr : Nat} {labels out : LabelTable} {name : Text} {before after queue : List Text}
    (h : preprocess addr labels (before ++ (':' :: name) :: after) = .ok (out, queue)) :
    labelAddress name out = some (addr + 2 * (before.filter isInstruction).length) := by
  induction before generalizing addr labels queue with
  | nil =>
    obtain ⟨hnew, hrest⟩ := preprocess_cons_label (classify_colon name) h
    refine labelAddress_preprocess hrest ?_
    rw [labelAddress_append, hnew, Option.none_or, labelAddress_singleton]
    rfl
  | cons l ls ih =>
    obtain ⟨hl, q, -, hrest⟩ | ⟨hl, _, -, hrest⟩ := preprocess_cons_cases h
    · rw [ih hrest, List.filter_cons_of_pos hl, List.length_cons, Nat.mul_succ, Nat.add_right_comm, Nat.add_assoc]
    · rw [ih hrest, List.filter_cons_of_neg (by simp [hl])]

/-- Settles O31: by induction on the lines before the label, whose own line is no instruction line. -/
theorem labelsAreInstructionAddresses : Obligations.LabelsAreInstructionAddresses := by
  intro before after name labels queue h
  have hlabel : isInstruction (':' :: name) = false := by rw [isInstruction, classify_colon]; rfl
  refine ⟨labelAddress_of_label_line h, ?_⟩
  calc
    queue = (before ++ (':' :: name) :: after).filter isInstruction := preprocess_queue h
    _ = (before ++ after).filter isInstruction := by
      rw [List.filter_append, List.filter_append, List.filter_cons_of_neg (by simp [hlabel])]

end Sys2Proof.Machine
end

section
/-!
PROOFS. Control transfer and the keyboard (R100 to R108, R160 to R163): one equation per instruction in the state's
operations, and from the laws of those operations the statements about calls, returns, skips, the offset jump and the
key wait.
-/
namespace Sys2Proof.Machine

/-! ## RET and CALL -/

theorem exec_ret (s : State) :
    exec .ret s = if s.sp = 0#8 then .next (s.raise .stackUnderflow) else .next s.pop := rfl

theorem exec_call (addr : Addr) (s : State) : exec (.call addr) s =
    if s.sp = 15#8 then .next (s.raise .stackOverflow) else .next (s.push.setPc (addrWord addr)) := rfl

/-- An instruction that enters a fault raises it. -/
theorem raises_of_exec {i : Instr} {s : State} {f : FaultCode} (h : exec i s = .next (s.raise f)) : Raises i s f :=
  ⟨s.raise f, h, s.raise_faultReg f, s.raise_pc_toNat f, frame_raise s f⟩

theorem pop_pc_toNat (s : State) (h : s.sp.toNat < 16) : s.pop.pc.toNat = s.stack[s.sp.toNat].toNat % 4096 := by
  rw [State.pop_pc, mask12_toNat, State.readStack_eq s s.sp h]

theorem sub_one_toNat {b : Byte} (h : b ≠ 0#8) : (b - 1#8).toNat = b.toNat - 1 := by
  bv_omega

theorem add_one_toNat {b : Byte} (h : b.toNat < 15) : (b + 1#8).toNat = b.toNat + 1 := by
  bv_omega

/-- Settles O1: a return is a pop unless the stack is empty, and then a fault. -/
theorem retReturnsOrUnderflows : Obligations.RetReturnsOrUnderflows :=
  ⟨encodedAs_of_mask_FFFF (n := .ret) rfl,
    fun s h hsp => ⟨s.pop, by rw [exec_ret, if_neg hsp], pop_pc_toNat s h, sub_one_toNat hsp, frame_pop s⟩,
    fun s hsp => raises_of_exec (by rw [exec_ret, if_pos hsp])⟩

theorem exec_call_of_lt {s : State} (h : s.sp.toNat < 15) (addr : Addr) :
    exec (.call addr) s = .next (s.push.setPc (addrWord addr)) := by
  have hsp : s.sp ≠ 15#8 := by
    intro e
    rw [e] at h
    exact absurd h (by decide)
  rw [exec_call, if_neg hsp]

/-- Settles O3: a call is a push and a jump unless the stack is full, and then a fault. -/
theorem callPushesOrOverflows : Obligations.CallPushesOrOverflows :=
  ⟨encodedAs_of_mask_F000 (n := .call) rfl,
    fun s addr h => ⟨s.push.setPc (addrWord addr), exec_call_of_lt h addr, add_one_toNat h,
      fun k hk => s.push_stack h k hk, setPc_addrWord_pc_toNat s.push addr, frame_push s _⟩,
    fun s addr hsp => raises_of_exec (by rw [exec_call, if_pos hsp])⟩

/-! ## JP V0 -/

theorem exec_jpV0 (addr : Addr) (s : State) : exec (.jpV0 addr) s = .next (s.setPc (s.offsetTarget addr)) := rfl

theorem offsetTarget_toNat (s : State) (addr : Addr) :
    (s.offsetTarget addr).toNat = addr.toNat + (s.readV 0#4).toNat := by
  rw [State.offsetTarget, BitVec.toNat_add, addrWord_toNat, byteWord_toNat]
  omega

/-- Settles O6: the jump is a write of `PC`, and the sum does not wrap before it is masked. -/
theorem jpV0AddsOffset : Obligations.JpV0AddsOffset :=
  ⟨encodedAs_of_mask_F000 (n := .jpV0) rfl, fun s addr =>
    ⟨s.setPc (s.offsetTarget addr), exec_jpV0 addr s, by rw [State.setPc_pc_toNat, offsetTarget_toNat],
      frame_setPc s _⟩⟩

/-! ## Skips -/

theorem exec_seByte (x : Nibble) (kk : Byte) (s : State) :
    exec (.seByte x kk) s = .next (s.skipIf (s.readV x == kk)) := rfl

theorem exec_sneByte (x : Nibble) (kk : Byte) (s : State) :
    exec (.sneByte x kk) s = .next (s.skipIf (s.readV x != kk)) := rfl

theorem exec_seReg (x y : Nibble) (s : State) :
    exec (.seReg x y) s = .next (s.skipIf (s.readV x == s.readV y)) := rfl

theorem exec_sneReg (x y : Nibble) (s : State) :
    exec (.sneReg x y) s = .next (s.skipIf (s.readV x != s.readV y)) := rfl

theorem exec_skp (x : Nibble) (s : State) : exec (.skp x) s = .next (s.skipIf (s.readKey (s.keyIndex x))) := rfl

theorem exec_sknp (x : Nibble) (s : State) : exec (.sknp x) s = .next (s.skipIf (!s.readKey (s.keyIndex x))) := rfl

theorem skipIf_pc_toNat (s : State) (b : Bool) :
    (s.skipIf b).pc.toNat = if b then (s.pc.toNat + 2) % 4096 else s.pc.toNat := by
  cases b
  · rfl
  · exact s.advance_pc_toNat

/-- An instruction that is one skip skips when its condition holds. -/
theorem skipsWhen_of_exec {i : Instr} {b : State → Bool} {c : State → Prop}
    (hexec : ∀ s, exec i s = .next (s.skipIf (b s))) (hb : ∀ s, b s = true ↔ c s) : SkipsWhen i c := fun s =>
  ⟨s.skipIf (b s), hexec s, fun hc => by rw [skipIf_pc_toNat, if_pos ((hb s).2 hc)],
    fun hc => by rw [State.skipIf_pc, if_neg fun h => hc ((hb s).1 h)], frame_skipIf s (b s)⟩

/-- Settles O4: the rows are told by their top nibble, and each instruction is one skip. -/
theorem skipsComparingImmediate : Obligations.SkipsComparingImmediate :=
  ⟨encodedAs_of_mask_F000 (n := .seByte) rfl, encodedAs_of_mask_F000 (n := .sneByte) rfl,
    fun x kk => skipsWhen_of_exec (exec_seByte x kk) fun s => by rw [beq_iff_eq, BitVec.toNat_inj],
    fun x kk => skipsWhen_of_exec (exec_sneByte x kk) fun s => by rw [bne_iff_ne, Ne, Ne, BitVec.toNat_inj]⟩

/-- Settles O5: the rows are told by their top nibble alone, and each instruction is one skip. -/
theorem skipsComparingRegisters : Obligations.SkipsComparingRegisters :=
  ⟨encodedAs_of_mask_F000 (n := .seReg) rfl, encodedAs_of_mask_F000 (n := .sneReg) rfl,
    fun x y => skipsWhen_of_exec (exec_seReg x y) fun s => by rw [beq_iff_eq, BitVec.toNat_inj],
    fun x y => skipsWhen_of_exec (exec_sneReg x y) fun s => by rw [bne_iff_ne, Ne, Ne, BitVec.toNat_inj]⟩

theorem readKey_keyIndex (s : State) (x : Nibble) :
    s.readKey (s.keyIndex x) = s.key[(s.readV x).toNat % 16]'(Nat.mod_lt _ (by decide)) := by
  simp only [State.readKey, State.keyIndex_toNat]

/-- Settles O20: the rows are told by their bottom byte, and each instruction is one skip. -/
theorem skipsOnKeyState : Obligations.SkipsOnKeyState :=
  ⟨encodedAs_of_mask_F0FF (n := .skp) rfl, encodedAs_of_mask_F0FF (n := .sknp) rfl,
    fun x => skipsWhen_of_exec (exec_skp x) fun s => by rw [readKey_keyIndex],
    fun x => skipsWhen_of_exec (exec_sknp x) fun s => by rw [readKey_keyIndex, Bool.not_eq_true']⟩

/-! ## The key wait -/

/-- With a least pressed key the wait is one register write. -/
theorem exec_ldVxK_of_some {s : State} {k : Nat} (h : s.leastKey = some k) (x : Nibble) :
    exec (.ldVxK x) s = .next (s.writeV x (BitVec.ofNat 8 k)) := by
  change execLdVxK x s = _
  rw [execLdVxK, h]

/-- With no key pressed the wait undoes the advance of the fetch. -/
theorem exec_ldVxK_of_none {s : State} (h : s.leastKey = none) (x : Nibble) :
    exec (.ldVxK x) s = .next s.retreat := by
  change execLdVxK x s = _
  rw [execLdVxK, h]

theorem readV_writeV_self (s : State) (x : Nibble) (b : Byte) : (s.writeV x b).readV x = b := by
  rw [State.readV_writeV, if_pos rfl]

/-- A number that fits its width is kept. -/
theorem toNat_ofNat_of_lt {w n : Nat} (h : n < 2 ^ w) : (BitVec.ofNat w n).toNat = n := by
  rw [BitVec.toNat_ofNat, Nat.mod_eq_of_lt h]

/-- Settles O21: a pressed key ends the wait with one register write, and without one the wait is a retreat. -/
theorem keyWaitTakesLeastKeyOrHolds : Obligations.KeyWaitTakesLeastKeyOrHolds :=
  ⟨encodedAs_of_mask_F0FF (n := .ldVxK) rfl,
    fun s x k h hk hleast => ⟨s.writeV x (BitVec.ofNat 8 k),
      exec_ldVxK_of_some ((s.leastKey_eq_some k).2 ⟨h, hk, hleast⟩) x,
      by rw [readV_writeV_self, toNat_ofNat_of_lt (by omega)], frame_writeV s x _⟩,
    fun s x hnone => ⟨s.retreat, exec_ldVxK_of_none (s.leastKey_eq_none.2 hnone) x, s.retreat_pc_toNat,
      frame_retreat s⟩⟩

end Sys2Proof.Machine
end

section
/-!
PROOFS. Arithmetic with a flag, the random byte and the address register (R126 to R131, R140 to R142): each instruction
is one write, of a result and a flag, of a register, or of `I`.
-/
namespace Sys2Proof.Machine

/-! ## Results with a flag -/

theorem exec_addReg (x y : Nibble) (s : State) : exec (.addReg x y) s =
    .next (s.writeVFlag x (s.readV x + s.readV y) (carryFlag (s.readV x) (s.readV y))) := rfl

theorem exec_subReg (x y : Nibble) (s : State) : exec (.subReg x y) s =
    .next (s.writeVFlag x (s.readV x - s.readV y) (notBorrowFlag (s.readV x) (s.readV y))) := rfl

theorem exec_subn (x y : Nibble) (s : State) : exec (.subn x y) s =
    .next (s.writeVFlag x (s.readV y - s.readV x) (notBorrowFlag (s.readV y) (s.readV x))) := rfl

theorem exec_shr (x y : Nibble) (s : State) :
    exec (.shr x y) s = .next (s.writeVFlag x (s.readV x >>> 1) (lowBit (s.readV x))) := rfl

theorem exec_shl (x y : Nibble) (s : State) :
    exec (.shl x y) s = .next (s.writeVFlag x (s.readV x <<< 1) (highBit (s.readV x))) := rfl

/-- A flag byte tells whether its condition holds (R11). -/
def FlagOf (f : Byte) (c : Prop) : Prop := (c → f = 1#8) ∧ (¬ c → f = 0#8)

theorem FlagOf.zero_or_one {f : Byte} {c : Prop} (h : FlagOf f c) : f = 0#8 ∨ f = 1#8 := by
  by_cases hc : c
  · exact .inr (h.1 hc)
  · exact .inl (h.2 hc)

theorem FlagOf.eq_one_iff {f : Byte} {c : Prop} (h : FlagOf f c) : f = 1#8 ↔ c := by
  refine ⟨fun hf => ?_, h.1⟩
  by_contra hc
  exact absurd (hf.symm.trans (h.2 hc)) (by decide)

theorem flagOf_flagByte (c : Prop) [Decidable c] : FlagOf (flagByte (decide c)) c :=
  ⟨fun h => by rw [decide_eq_true h]; rfl, fun h => by rw [decide_eq_false h]; rfl⟩

theorem flagOf_lowBit (b : Byte) : FlagOf (lowBit b) (b.toNat % 2 = 1) := by
  have h := lowBit_toNat b
  constructor <;> intro hc <;> apply BitVec.eq_of_toNat_eq <;> rw [h, BitVec.toNat_ofNat] <;> omega

theorem flagOf_highBit (b : Byte) : FlagOf (highBit b) (b.toNat ≥ 128) := by
  have h := highBit_toNat b
  constructor <;> intro hc <;> apply BitVec.eq_of_toNat_eq <;> rw [h, BitVec.toNat_ofNat] <;> omega

/-- An instruction that is one write of a result and a flag changes those two registers alone, the flag last. -/
theorem writesRegAndFlag_of_exec {i : Instr} {x : Nibble} {b f : State → Byte} {v : State → Nat} {c : State → Prop}
    (hexec : ∀ s, exec i s = .next (s.writeVFlag x (b s) (f s))) (hb : ∀ s, (b s).toNat = v s)
    (hf : ∀ s, FlagOf (f s) (c s)) : WritesRegAndFlag i x v c := fun s => by
  refine ⟨s.writeVFlag x (b s) (f s), hexec s, fun hx => ?_, ?_, ?_, frame_writeVFlag s x (b s) (f s)⟩
  · rw [State.readV_writeVFlag, if_neg hx, if_pos rfl, hb]
  all_goals rw [State.readV_writeVFlag, if_pos rfl]
  exacts [(hf s).1, (hf s).2]

/-- Settles O9: the row is told by its two nibbles, and the instruction is one write of a sum and its carry. -/
theorem addSetsCarry : Obligations.AddSetsCarry :=
  ⟨encodedAs_of_mask_F00F (n := .addReg) rfl, fun x y =>
    writesRegAndFlag_of_exec (exec_addReg x y) (fun _ => BitVec.toNat_add ..) fun _ => flagOf_flagByte _⟩

theorem sub_toNat (a b : Byte) : (a - b).toNat = (a.toNat + 256 - b.toNat) % 256 := by
  rw [BitVec.toNat_sub]
  omega

/-- Settles O10: the rows are told by their two nibbles, and each instruction is one write of a difference and its
flag. -/
theorem subtractSetsNotBorrow : Obligations.SubtractSetsNotBorrow :=
  ⟨encodedAs_of_mask_F00F (n := .subReg) rfl, encodedAs_of_mask_F00F (n := .subn) rfl,
    fun x y => writesRegAndFlag_of_exec (exec_subReg x y) (fun _ => sub_toNat ..) fun _ => flagOf_flagByte _,
    fun x y => writesRegAndFlag_of_exec (exec_subn x y) (fun _ => sub_toNat ..) fun _ => flagOf_flagByte _⟩

theorem shiftRight_one_toNat (b : Byte) : (b >>> 1).toNat = b.toNat / 2 := by
  rw [BitVec.toNat_ushiftRight, Nat.shiftRight_eq_div_pow, pow_one]

theorem shiftLeft_one_toNat (b : Byte) : (b <<< 1).toNat = 2 * b.toNat % 256 := by
  rw [BitVec.toNat_shiftLeft, Nat.shiftLeft_eq, pow_one, Nat.mul_comm]

/-- Settles O11: the rows are told by their two nibbles, and each instruction is one write of the shifted register and
the bit shifted out. -/
theorem shiftsSetShiftedOutBit : Obligations.ShiftsSetShiftedOutBit :=
  ⟨encodedAs_of_mask_F00F (n := .shr) rfl, encodedAs_of_mask_F00F (n := .shl) rfl,
    fun x y => writesRegAndFlag_of_exec (exec_shr x y) (fun _ => shiftRight_one_toNat _) fun _ => flagOf_lowBit _,
    fun x y => writesRegAndFlag_of_exec (exec_shl x y) (fun _ => shiftLeft_one_toNat _) fun _ => flagOf_highBit _⟩

/-! ## The random byte -/

theorem exec_rnd (x : Nibble) (kk : Byte) (s : State) :
    exec (.rnd x kk) s = .next (s.drawn.writeV x (s.nextRandom &&& kk)) := rfl

/-- Settles O12: the draw changes the count alone, and the masked byte is one register write after it. -/
theorem rndMasksOneDraw : Obligations.RndMasksOneDraw := by
  refine ⟨encodedAs_of_mask_F000 (n := .rnd) rfl, fun s x kk => ?_⟩
  obtain ⟨hdregs, hdparts⟩ := frame_drawn s
  obtain ⟨hwregs, hwparts⟩ := frame_writeV s.drawn x (s.nextRandom &&& kk)
  exact ⟨s.drawn.writeV x (s.nextRandom &&& kk), exec_rnd x kk s, by rw [readV_writeV_self]; exact BitVec.toNat_and ..,
    rfl, (hdregs.mono (by simp)).trans hwregs, hdparts.trans (hwparts.mono (by simp))⟩

/-! ## The address register -/

theorem exec_ldI (addr : Addr) (s : State) : exec (.ldI addr) s = .next (s.setI (addrWord addr)) := rfl

theorem exec_addIVx (x : Nibble) (s : State) : exec (.addIVx x) s = .next (s.setI (s.indexSum x)) := rfl

theorem exec_ldF (x : Nibble) (s : State) : exec (.ldF x) s = .next (s.setI (glyphAddr (s.readV x))) := rfl

/-- An instruction that is one write of `I` changes `I` alone. -/
theorem writesIndex_of_exec {i : Instr} {w : State → Word} {f : State → Nat}
    (hexec : ∀ s, exec i s = .next (s.setI (w s))) (hw : ∀ s, (w s).toNat % 4096 = f s) : WritesIndex i f := fun s =>
  ⟨s.setI (w s), hexec s, by rw [State.setI_i, mask12_toNat, hw], frame_setI s (w s)⟩

theorem indexSum_toNat_mod (s : State) (x : Nibble) :
    (s.indexSum x).toNat % 4096 = (s.i.toNat + (s.readV x).toNat) % 4096 := by
  rw [State.indexSum, BitVec.toNat_add, byteWord_toNat]
  omega

theorem glyphAddr_toNat (b : Byte) : (glyphAddr b).toNat = 5 * b.toNat := by
  rw [glyphAddr, BitVec.toNat_mul, byteWord_toNat, BitVec.toNat_ofNat]
  omega

/-- Settles O13: each instruction is one write of `I`, of a number that the mask reduces or leaves alone. -/
theorem indexRegisterLoads : Obligations.IndexRegisterLoads :=
  ⟨encodedAs_of_mask_F000 (n := .ldI) rfl, encodedAs_of_mask_F0FF (n := .addIVx) rfl,
    encodedAs_of_mask_F0FF (n := .ldF) rfl,
    fun addr => writesIndex_of_exec (exec_ldI addr) fun _ => by rw [addrWord_toNat, Nat.mod_eq_of_lt addr.isLt],
    fun x => writesIndex_of_exec (exec_addIVx x) fun s => indexSum_toNat_mod s x,
    fun x => writesIndex_of_exec (exec_ldF x) fun s => by rw [glyphAddr_toNat]; omega⟩

end Sys2Proof.Machine
end

section
/-!
PROOFS. The memory transfers (R143 to R146): what the bytes of a transfer read afterwards, and the cells it leaves
alone.
-/
namespace Sys2Proof.Machine

theorem exec_ldMemVx (x : Nibble) (s : State) :
    exec (.ldMemVx x) s = .next { s with mem := s.storeRange (x.toNat + 1) } := rfl

theorem exec_ldVxMem (x : Nibble) (s : State) : exec (.ldVxMem x) s = .next (s.loadRange (x.toNat + 1)) := rfl

/-! ## Decimal digits -/

/-- The digit that `LD B, Vx` stores at offset `k` (R143). -/
def bcdDigit (b : Byte) (k : Nat) : Byte := BitVec.ofNat 8 (b.toNat / 10 ^ (2 - k) % 10)

theorem bcdDigit_toNat (b : Byte) (k : Nat) : (bcdDigit b k).toNat = b.toNat / 10 ^ (2 - k) % 10 := by
  rw [bcdDigit, BitVec.toNat_ofNat]
  omega

/-- The state after `LD B, Vx`. -/
def State.storeBcd (s : State) (b : Byte) : State :=
  ((s.writeMem (s.effAddr 0) (bcdDigit b 0)).writeMem (s.effAddr 1) (bcdDigit b 1)).writeMem (s.effAddr 2)
    (bcdDigit b 2)

theorem bcdHundreds_eq (b : Byte) : bcdHundreds b = bcdDigit b 0 := by
  rw [← BitVec.toNat_inj, bcdDigit_toNat, bcdHundreds, BitVec.toNat_ofNat]
  omega

theorem bcdTens_eq (b : Byte) : bcdTens b = bcdDigit b 1 := rfl

theorem bcdOnes_eq (b : Byte) : bcdOnes b = bcdDigit b 2 := by
  rw [← BitVec.toNat_inj, bcdDigit_toNat, bcdOnes, BitVec.toNat_ofNat]
  omega

theorem exec_ldB (x : Nibble) (s : State) : exec (.ldB x) s = .next (s.storeBcd (s.readV x)) := by
  rw [State.storeBcd, ← bcdHundreds_eq, ← bcdTens_eq, ← bcdOnes_eq]
  rfl

theorem storeBcd_wf {s : State} (h : s.mem.wf = true) (b : Byte) : (s.storeBcd b).mem.wf = true :=
  Memory.wf_write (Memory.wf_write (Memory.wf_write h _ _) _ _) _ _

theorem storeBcd_readMem (s : State) (h : s.mem.wf = true) (b : Byte) {k : Nat} (hk : k < 3) :
    (s.storeBcd b).readMem (s.effAddr k) = bcdDigit b k := by
  have hne {j l : Nat} (hj : j < 3) (hl : l < 3) : s.effAddr j = s.effAddr l ↔ j = l :=
    ⟨s.effAddr_inj (by omega) (by omega), fun e => e ▸ rfl⟩
  have h1 := Memory.wf_write h (s.effAddr 0) (bcdDigit b 0)
  have h2 := Memory.wf_write h1 (s.effAddr 1) (bcdDigit b 1)
  simp only [State.storeBcd, State.readMem, State.writeMem, Memory.read_write h2, Memory.read_write h1,
    Memory.read_write h, Nat.mod_eq_of_lt (s.effAddr_lt _)]
  interval_cases k <;> simp [hne]

theorem storeBcd_readMem_ne (s : State) (b : Byte) {a : Nat} (ha : ∀ k, k < 3 → a % 4096 ≠ s.effAddr k) :
    (s.storeBcd b).readMem a = s.readMem a := by
  have hne {k : Nat} (hk : k < 3) : a % 4096 ≠ s.effAddr k % 4096 := by
    rw [Nat.mod_eq_of_lt (s.effAddr_lt k)]
    exact ha k hk
  simp only [State.storeBcd, State.readMem, State.writeMem]
  rw [Memory.read_write_ne _ (hne (by decide)), Memory.read_write_ne _ (hne (by decide)),
    Memory.read_write_ne _ (hne (by decide))]

theorem frame_storeBcd (s : State) (b : Byte) : SameRegsBut [] s (s.storeBcd b) ∧ SameBut [.mem] s (s.storeBcd b) :=
  frame_mem s _

/-- Settles O14: the three digits are stored in three cells of their own. -/
theorem bcdStoresDigits : Obligations.BcdStoresDigits := by
  refine ⟨encodedAs_of_mask_F0FF (n := .ldB) rfl, fun s x h => ?_⟩
  have hb := (s.readV x).isLt
  refine ⟨s.storeBcd (s.readV x), exec_ldB x s, ?_, ?_, ?_, fun a => storeBcd_readMem_ne s _, frame_storeBcd s _⟩
  all_goals rw [storeBcd_readMem s h _ (by decide), bcdDigit_toNat]
  all_goals omega

/-! ## Blocks of registers -/

theorem nibble_le_iff (k x : Nibble) : k ≤ x ↔ k.toNat < x.toNat + 1 := Nat.lt_succ_iff.symm

/-- Settles O15: the store puts one register in each cell, of at most 16. -/
theorem blockStoreWritesRange : Obligations.BlockStoreWritesRange := by
  refine ⟨encodedAs_of_mask_F0FF (n := .ldMemVx) rfl, fun s x h =>
    ⟨{ s with mem := s.storeRange (x.toNat + 1) }, exec_ldMemVx x s, fun k hk => ?_, fun a ha => ?_, frame_mem s _⟩⟩
  · have hstored := s.storeRange_read h (n := x.toNat + 1) (k := k.toNat) (by omega) ((nibble_le_iff k x).1 hk)
    rwa [BitVec.ofNat_toNat, BitVec.setWidth_eq] at hstored
  · refine s.storeRange_read_ne fun k hk => ?_
    have hk' : (BitVec.ofNat 4 k).toNat = k := by rw [BitVec.toNat_ofNat]; omega
    exact hk' ▸ ha (BitVec.ofNat 4 k) ((nibble_le_iff _ x).2 (by omega))

/-- A block load changes nothing but registers. -/
theorem frame_loadRange (s : State) (n : Nat) : SameBut [] s (s.loadRange n) := by
  rw [s.loadRange_eq n, sameBut_iff]
  simp [State.readMem]

/-- Settles O16: the load writes each register up to `x` once, from its own cell. -/
theorem blockLoadReadsRange : Obligations.BlockLoadReadsRange :=
  ⟨encodedAs_of_mask_F0FF (n := .ldVxMem) rfl, fun s x =>
    ⟨s.loadRange (x.toNat + 1), exec_ldVxMem x s, fun k => by
      rw [s.loadRange_readV (by omega)]
      simp only [nibble_le_iff], frame_loadRange s _⟩⟩

end Sys2Proof.Machine
end

section
/-!
PROOFS. Sprites pixel by pixel (R151): a sprite's row on the screen, the pixels after a draw and its collision, and from
these the statements about one draw and about two equal draws.
-/
namespace Sys2Proof.Machine

theorem State.startCol_lt (s : State) (x : Nibble) : s.startCol x < 64 := Nat.mod_lt _ (by decide)

/-! ## Pixels -/

theorem spriteRow_getLsbD (s : State) {x0 : Nat} (hx : x0 < 64) (y0 n r : Nat) {c : Nat} (hc : c < 64) :
    (spriteRow s x0 y0 n r).getLsbD (63 - c) = spritePixel s x0 y0 n r c := by
  rw [spriteRow, spritePixel]
  by_cases h : y0 ≤ r ∧ r - y0 < n
  · rw [if_pos h, spriteMask_getLsbD _ hx hc, decide_eq_true h.1, decide_eq_true h.2, Bool.true_and, Bool.true_and]
  · rw [if_neg h]
    have hout : (decide (y0 ≤ r) && decide (r - y0 < n)) = false := by simpa using h
    rw [hout]
    simp

/-- Two rows share a lit pixel when their meet is not dark. -/
theorem row_and_ne_zero_iff (a b : Row) :
    a &&& b ≠ 0 ↔ ∃ c, c < 64 ∧ a.getLsbD (63 - c) = true ∧ b.getLsbD (63 - c) = true := by
  constructor
  · intro h
    by_contra hno
    refine h (BitVec.eq_of_getLsbD_eq fun k hk => ?_)
    have hk' := fun h1 h2 => hno ⟨63 - k, by omega, h1, h2⟩
    rw [show 63 - (63 - k) = k by omega] at hk'
    rw [BitVec.getLsbD_and]
    cases ha : a.getLsbD k <;> cases hb : b.getLsbD k <;> simp_all
  · rintro ⟨c, hc, ha, hb⟩ h
    have : (a &&& b).getLsbD (63 - c) = true := by rw [BitVec.getLsbD_and, ha, hb]; rfl
    rw [h] at this
    simp at this

/-- Every pixel of the screen after a draw: toggled where the sprite has a 1 bit. -/
theorem drawSprite_pixel (s : State) {x0 : Nat} (hx : x0 < 64) (y0 n : Nat) {r c : Nat} (hr : r < 32) (hc : c < 64) :
    pixel (s.drawSprite x0 y0 n).1 r c = (pixel s.disp r c ^^ spritePixel s x0 y0 n r c) := by
  rw [pixel, s.drawSprite_row x0 y0 n hr, BitVec.getLsbD_xor, spriteRow_getLsbD s hx y0 n r hc, pixel]

/-- A draw collides when some lit pixel of the screen lies under a 1 bit of the sprite. -/
theorem drawSprite_collision_iff (s : State) {x0 : Nat} (hx : x0 < 64) (y0 n : Nat) :
    (s.drawSprite x0 y0 n).2 = true ↔
      ∃ r c, r < 32 ∧ c < 64 ∧ pixel s.disp r c = true ∧ spritePixel s x0 y0 n r c = true := by
  rw [s.drawSprite_collision x0 y0 n]
  simp only [row_and_ne_zero_iff]
  constructor
  · rintro ⟨r, hr, c, hc, hlit, hsprite⟩
    exact ⟨r, c, hr, hc, hlit, by rwa [← spriteRow_getLsbD s hx y0 n r hc]⟩
  · rintro ⟨r, c, hr, hc, hlit, hsprite⟩
    exact ⟨r, hr, c, hc, hlit, by rwa [spriteRow_getLsbD s hx y0 n r hc]⟩

/-! ## One draw -/

/-- The state after `DRW Vx, Vy, n`. -/
def State.draw (s : State) (x y n : Nibble) : State :=
  ({ s with disp := (s.drawSprite (s.startCol x) (s.startRow y) n.toNat).1 } : State).writeV 15#4
    (flagByte (s.drawSprite (s.startCol x) (s.startRow y) n.toNat).2)

theorem exec_drw (x y n : Nibble) (s : State) : exec (.drw x y n) s = .next (s.draw x y n) := rfl

theorem draw_disp (s : State) (x y n : Nibble) :
    (s.draw x y n).disp = (s.drawSprite (s.startCol x) (s.startRow y) n.toNat).1 := rfl

theorem flagOf_draw (s : State) (x y n : Nibble) : FlagOf ((s.draw x y n).readV 15#4)
    (∃ r c, r < 32 ∧ c < 64 ∧ pixel s.disp r c = true ∧
      spritePixel s (s.startCol x) (s.startRow y) n.toNat r c = true) := by
  rw [State.draw, readV_writeV_self, ← drawSprite_collision_iff s (s.startCol_lt x)]
  simpa using flagOf_flagByte ((s.drawSprite (s.startCol x) (s.startRow y) n.toNat).2 = true)

theorem frame_draw (s : State) (x y n : Nibble) :
    SameRegsBut [15#4] s (s.draw x y n) ∧ SameBut [.disp] s (s.draw x y n) := by
  obtain ⟨hdregs, hdparts⟩ := frame_disp s (s.drawSprite (s.startCol x) (s.startRow y) n.toNat).1
  obtain ⟨hwregs, hwparts⟩ := frame_writeV _ 15#4 _
  exact ⟨(hdregs.mono (by simp)).trans hwregs, hdparts.trans (hwparts.mono (by simp))⟩

/-- Settles O18: the pixels and the collision of one draw, whose coordinates are below 64 and 32. -/
theorem drwXorsSpritePixels : Obligations.DrwXorsSpritePixels :=
  ⟨encodedAs_of_mask_F000 (n := .drw) rfl, fun s x y n =>
    ⟨s.draw x y n, exec_drw x y n s, fun _ _ => drawSprite_pixel s (s.startCol_lt x) (s.startRow y) n.toNat,
      (flagOf_draw s x y n).1, (flagOf_draw s x y n).2, frame_draw s x y n⟩⟩

/-! ## Two equal draws -/

theorem draw_readV (s : State) (x y n : Nibble) {r : Nibble} (hr : r ≠ 15#4) :
    (s.draw x y n).readV r = s.readV r :=
  (frame_draw s x y n).1 r (by simpa using hr)

theorem draw_startCol (s : State) {x : Nibble} (hx : x ≠ 15#4) (y n : Nibble) :
    (s.draw x y n).startCol x = s.startCol x := by
  rw [State.startCol, draw_readV s x y n hx, State.startCol]

theorem draw_startRow (s : State) (x : Nibble) {y : Nibble} (hy : y ≠ 15#4) (n : Nibble) :
    (s.draw x y n).startRow y = s.startRow y := by
  rw [State.startRow, draw_readV s x y n hy, State.startRow]

/-- A draw moves no sprite: memory and `I` are as before. -/
theorem draw_spriteRow (s : State) (x y n : Nibble) (x0 y0 m r : Nat) :
    spriteRow (s.draw x y n) x0 y0 m r = spriteRow s x0 y0 m r := rfl

theorem draw_spritePixel (s : State) (x y n : Nibble) (x0 y0 m r c : Nat) :
    spritePixel (s.draw x y n) x0 y0 m r c = spritePixel s x0 y0 m r c := rfl

theorem draw_draw_disp (s : State) {x y : Nibble} (hx : x ≠ 15#4) (hy : y ≠ 15#4) (n : Nibble) :
    ((s.draw x y n).draw x y n).disp = s.disp := by
  refine disp_ext fun r hr => ?_
  rw [draw_disp, State.drawSprite_row _ _ _ _ hr, draw_disp, State.drawSprite_row _ _ _ _ hr, draw_spriteRow,
    draw_startCol s hx, draw_startRow s x hy, BitVec.xor_assoc, BitVec.xor_self, BitVec.xor_zero]

/-- Under a 1 bit of the sprite a draw lights what was dark and darkens what was lit. -/
theorem draw_pixel_of_spritePixel (s : State) (x y n : Nibble) {r c : Nat} (hr : r < 32) (hc : c < 64)
    (hsprite : spritePixel s (s.startCol x) (s.startRow y) n.toNat r c = true) :
    pixel (s.draw x y n).disp r c = true ↔ pixel s.disp r c = false := by
  rw [draw_disp, drawSprite_pixel s (s.startCol_lt x) _ _ hr hc, hsprite, Bool.xor_true, Bool.not_eq_true']

/-- The second draw finds lit, under a 1 bit of the sprite, what was dark before the first. -/
theorem flagOf_draw_draw (s : State) {x y : Nibble} (hx : x ≠ 15#4) (hy : y ≠ 15#4) (n : Nibble) :
    FlagOf (((s.draw x y n).draw x y n).readV 15#4)
      (∃ r c, r < 32 ∧ c < 64 ∧ pixel s.disp r c = false ∧
        spritePixel s (s.startCol x) (s.startRow y) n.toNat r c = true) := by
  have hflag := flagOf_draw (s.draw x y n) x y n
  simp only [draw_startCol s hx, draw_startRow s x hy, draw_spritePixel] at hflag
  have hdark : (∃ r c, r < 32 ∧ c < 64 ∧ pixel (s.draw x y n).disp r c = true ∧
        spritePixel s (s.startCol x) (s.startRow y) n.toNat r c = true) ↔
      ∃ r c, r < 32 ∧ c < 64 ∧ pixel s.disp r c = false ∧
        spritePixel s (s.startCol x) (s.startRow y) n.toNat r c = true :=
    exists_congr fun r => exists_congr fun c => and_congr_right fun hr => and_congr_right fun hc =>
      and_congr_left fun hsprite => draw_pixel_of_spritePixel s x y n hr hc hsprite
  rwa [hdark] at hflag

/-- Settles O19: the second draw undoes the first row by row, and its flag tells of the pixels that the first one
lit. -/
theorem drawingTwiceRestoresDisplay : Obligations.DrawingTwiceRestoresDisplay := by
  intro s x y n hx hy
  have hflag := flagOf_draw_draw s hx hy n
  refine ⟨s.draw x y n, (s.draw x y n).draw x y n, exec_drw x y n s, exec_drw x y n _, draw_draw_disp s hx hy n,
    hflag.1, hflag.2, fun hfirst => ?_⟩
  have hnone : ¬ ∃ r c, r < 32 ∧ c < 64 ∧ pixel s.disp r c = true ∧
      spritePixel s (s.startCol x) (s.startRow y) n.toNat r c = true := fun h =>
    absurd (hfirst.symm.trans ((flagOf_draw s x y n).1 h)) (by decide)
  rw [hflag.eq_one_iff]
  constructor
  · rintro ⟨r, c, hr, hc, -, hsprite⟩
    exact ⟨r, c, hr, hc, hsprite⟩
  · rintro ⟨r, c, hr, hc, hsprite⟩
    refine ⟨r, c, hr, hc, ?_, hsprite⟩
    exact Bool.eq_false_iff.2 fun hlit => hnone ⟨r, c, hr, hc, hlit, hsprite⟩

end Sys2Proof.Machine
end

section
/-!
PROOFS. What one instruction can do, said once for all of them: `exec` always answers a next state, and the next state
is one of the few outcomes of `Effect`. From that, which piece of state each instruction may write (R11 to R27, R40), and
what every instruction keeps.
-/
namespace Sys2Proof.Machine

/-- What an instruction may do to a state: one constructor for each group of instructions that write alike. -/
inductive Effect (s : State) : Instr → State → Prop
  | underflow : s.sp = 0#8 → Effect s .ret (s.raise .stackUnderflow)
  | ret : s.sp ≠ 0#8 → Effect s .ret s.pop
  | overflow (addr : Addr) : s.sp = 15#8 → Effect s (.call addr) (s.raise .stackOverflow)
  | call (addr : Addr) : s.sp ≠ 15#8 → Effect s (.call addr) (s.push.setPc (addrWord addr))
  | jump {i : Instr} (w : Word) : i.name ∉ flagWriters → Effect s i (s.setPc w)
  | stay {i : Instr} : i.name ∉ flagWriters → Effect s i s
  | reg {i : Instr} (x : Nibble) (b : Byte) : i.name ∉ flagWriters → plainDest i x = true → Effect s i (s.writeV x b)
  | regFlag {i : Instr} (x : Nibble) (b f : Byte) : i.name ∈ flagWriters → plainDest i x = true →
      (f = 0#8 ∨ f = 1#8) → Effect s i (s.writeVFlag x b f)
  | rnd (x : Nibble) (kk b : Byte) : Effect s (.rnd x kk) (s.drawn.writeV x b)
  | index {i : Instr} (w : Word) : i.name ∈ [.ldI, .addIVx, .ldF] → Effect s i (s.setI w)
  | store {i : Instr} (m : Memory) : i.name ∈ [.ldB, .ldMemVx] → (s.mem.wf = true → m.wf = true) →
      Effect s i { s with mem := m }
  | load (x : Nibble) : Effect s (.ldVxMem x) (s.loadRange (x.toNat + 1))
  | cls : Effect s .cls { s with disp := Vector.replicate 32 0#64 }
  | drw (x y n : Nibble) : Effect s (.drw x y n) (s.draw x y n)
  | dt (x : Nibble) : Effect s (.ldDTVx x) { s with dt := s.readV x }
  | st (x : Nibble) : Effect s (.ldSTVx x) { s with st := s.readV x }

/-- A skip is a jump or nothing. -/
theorem Effect.skip {s : State} {i : Instr} (hi : i.name ∉ flagWriters) (c : Bool) : Effect s i (s.skipIf c) := by
  cases c
  · exact .stay hi
  · exact .jump _ hi

/-- Every instruction completes, with one of the effects. -/
theorem exec_effect (i : Instr) (s : State) : ∃ t, exec i s = .next t ∧ Effect s i t := by
  have notFlag {n : Name} (h : flagWriters.elem n = false) : n ∉ flagWriters := fun hmem =>
    nomatch h.symm.trans (List.elem_iff.2 hmem)
  have listed {n : Name} {ns : List Name} (h : ns.elem n = true) : n ∈ ns := List.elem_iff.1 h
  cases i with
  | cls => exact ⟨_, exec_cls s, .cls⟩
  | ret =>
    by_cases h : s.sp = 0#8
    · exact ⟨_, (exec_ret s).trans (if_pos h), .underflow h⟩
    · exact ⟨_, (exec_ret s).trans (if_neg h), .ret h⟩
  | jp addr => exact ⟨_, exec_jp addr s, .jump _ (notFlag rfl)⟩
  | call addr =>
    by_cases h : s.sp = 15#8
    · exact ⟨_, (exec_call addr s).trans (if_pos h), .overflow addr h⟩
    · exact ⟨_, (exec_call addr s).trans (if_neg h), .call addr h⟩
  | seByte x kk => exact ⟨_, exec_seByte x kk s, .skip (notFlag rfl) _⟩
  | sneByte x kk => exact ⟨_, exec_sneByte x kk s, .skip (notFlag rfl) _⟩
  | seReg x y => exact ⟨_, exec_seReg x y s, .skip (notFlag rfl) _⟩
  | ldByte x kk => exact ⟨_, exec_ldByte x kk s, .reg x _ (notFlag rfl) (beq_self_eq_true x)⟩
  | addByte x kk => exact ⟨_, exec_addByte x kk s, .reg x _ (notFlag rfl) (beq_self_eq_true x)⟩
  | ldReg x y => exact ⟨_, exec_ldReg x y s, .reg x _ (notFlag rfl) (beq_self_eq_true x)⟩
  | orReg x y => exact ⟨_, exec_orReg x y s, .reg x _ (notFlag rfl) (beq_self_eq_true x)⟩
  | andReg x y => exact ⟨_, exec_andReg x y s, .reg x _ (notFlag rfl) (beq_self_eq_true x)⟩
  | xorReg x y => exact ⟨_, exec_xorReg x y s, .reg x _ (notFlag rfl) (beq_self_eq_true x)⟩
  | addReg x y => exact ⟨_, exec_addReg x y s, .regFlag x _ _ (listed rfl) (beq_self_eq_true x) (flagByte_cases _)⟩
  | subReg x y => exact ⟨_, exec_subReg x y s, .regFlag x _ _ (listed rfl) (beq_self_eq_true x) (flagByte_cases _)⟩
  | shr x y =>
    exact ⟨_, exec_shr x y s, .regFlag x _ _ (listed rfl) (beq_self_eq_true x) (flagOf_lowBit _).zero_or_one⟩
  | subn x y => exact ⟨_, exec_subn x y s, .regFlag x _ _ (listed rfl) (beq_self_eq_true x) (flagByte_cases _)⟩
  | shl x y =>
    exact ⟨_, exec_shl x y s, .regFlag x _ _ (listed rfl) (beq_self_eq_true x) (flagOf_highBit _).zero_or_one⟩
  | sneReg x y => exact ⟨_, exec_sneReg x y s, .skip (notFlag rfl) _⟩
  | ldI addr => exact ⟨_, exec_ldI addr s, .index _ (listed rfl)⟩
  | jpV0 addr => exact ⟨_, exec_jpV0 addr s, .jump _ (notFlag rfl)⟩
  | rnd x kk => exact ⟨_, exec_rnd x kk s, .rnd x kk _⟩
  | drw x y n => exact ⟨_, exec_drw x y n s, .drw x y n⟩
  | skp x => exact ⟨_, exec_skp x s, .skip (notFlag rfl) _⟩
  | sknp x => exact ⟨_, exec_sknp x s, .skip (notFlag rfl) _⟩
  | ldVxDT x => exact ⟨_, exec_ldVxDT x s, .reg x _ (notFlag rfl) (beq_self_eq_true x)⟩
  | ldVxK x =>
    cases hkey : s.leastKey with
    | some k => exact ⟨_, exec_ldVxK_of_some hkey x, .reg x _ (notFlag rfl) (beq_self_eq_true x)⟩
    | none => exact ⟨_, exec_ldVxK_of_none hkey x, .jump _ (notFlag rfl)⟩
  | ldDTVx x => exact ⟨_, exec_ldDTVx x s, .dt x⟩
  | ldSTVx x => exact ⟨_, exec_ldSTVx x s, .st x⟩
  | addIVx x => exact ⟨_, exec_addIVx x s, .index _ (listed rfl)⟩
  | ldF x => exact ⟨_, exec_ldF x s, .index _ (listed rfl)⟩
  | ldB x => exact ⟨_, exec_ldB x s, .store _ (listed rfl) fun h => storeBcd_wf h _⟩
  | ldMemVx x => exact ⟨_, exec_ldMemVx x s, .store _ (listed rfl) fun h => s.storeRange_wf h _⟩
  | ldVxMem x => exact ⟨_, exec_ldVxMem x s, .load x⟩

theorem effect_of_exec {i : Instr} {s t : State} (h : exec i s = .next t) : Effect s i t := by
  obtain ⟨u, hu, heffect⟩ := exec_effect i s
  cases h.symm.trans hu
  exact heffect

/-! ## Which instructions write which piece -/

/-- Settles O43: effect by effect, the pieces that it writes are those of its instructions. -/
theorem onlyListedInstructionsWrite : Obligations.OnlyListedInstructionsWrite := by
  intro i s t h
  cases effect_of_exec h with
  | load x =>
    rw [s.loadRange_eq]
    simp [State.readMem]
  | index w hi => simp_all
  | store m hi => simp_all [State.readMem]
  | _ => simp [Instr.name, State.draw, State.readMem]

/-- The registers change between two states as an instruction may change them (R11). -/
def RegsChangeAs (i : Instr) (s t : State) : Prop :=
  (∀ r, t.readV r ≠ s.readV r → plainDest i r = true ∨ (r = 15#4 ∧ i.name ∈ flagWriters)) ∧
  (i.name ∈ flagWriters → t.readV 15#4 = 0#8 ∨ t.readV 15#4 = 1#8)

theorem mem_of_readV_ne {xs : List Nibble} {s t : State} (h : SameRegsBut xs s t) {r : Nibble}
    (hr : t.readV r ≠ s.readV r) : r ∈ xs :=
  not_imp_comm.1 (h r) hr

/-- Without a flag, the registers that change are to be plain destinations. -/
theorem regsChangeAs_of_plain {i : Instr} {s t : State} {xs : List Nibble} (hi : i.name ∉ flagWriters)
    (h : SameRegsBut xs s t) (hxs : ∀ x ∈ xs, plainDest i x = true) : RegsChangeAs i s t :=
  ⟨fun _ hr => .inl (hxs _ (mem_of_readV_ne h hr)), fun hflag => absurd hflag hi⟩

/-- With a flag, so are the others than `VF`. -/
theorem regsChangeAs_of_flag {i : Instr} {s t : State} {xs : List Nibble} (hi : i.name ∈ flagWriters)
    (h : SameRegsBut xs s t) (hxs : ∀ x ∈ xs, plainDest i x = true ∨ x = 15#4)
    (hflag : t.readV 15#4 = 0#8 ∨ t.readV 15#4 = 1#8) : RegsChangeAs i s t :=
  ⟨fun _ hr => (hxs _ (mem_of_readV_ne h hr)).imp_right fun hx => ⟨hx, hi⟩, fun _ => hflag⟩

theorem Effect.regsChangeAs {i : Instr} {s t : State} (h : Effect s i t) : RegsChangeAs i s t := by
  have noReg {i : Instr} {t : State} (hi : i.name ∉ flagWriters) (hv : t.v = s.v) : RegsChangeAs i s t :=
    regsChangeAs_of_plain hi (sameRegs_of_v hv []) (List.forall_mem_nil _)
  cases h with
  | reg x b hi hx => exact regsChangeAs_of_plain hi (frame_writeV s x b).1 (by simpa using hx)
  | regFlag x b f hi hx hf =>
    exact regsChangeAs_of_flag hi (frame_writeVFlag s x b _).1 (by simpa using .inl hx)
      ((State.readV_writeVFlag ..).trans (if_pos rfl) ▸ hf)
  | rnd x kk b =>
    exact regsChangeAs_of_plain (by simp [Instr.name, flagWriters]) (frame_writeV s.drawn x b).1 (by simp [plainDest])
  | load x =>
    refine ⟨fun r hr => .inl ?_, fun hflag => absurd hflag (by simp [Instr.name, flagWriters])⟩
    rw [s.loadRange_readV (by omega)] at hr
    have hlt : r.toNat < x.toNat + 1 := by
      by_contra hge
      exact hr (if_neg hge)
    exact decide_eq_true ((nibble_le_iff r x).2 hlt)
  | drw x y n =>
    exact regsChangeAs_of_flag (by simp [Instr.name, flagWriters]) (frame_draw s x y n).1 (by simp)
      (flagOf_draw s x y n).zero_or_one
  | jump w hi => exact noReg hi rfl
  | stay hi => exact noReg hi rfl
  | index w hi =>
    have hplain : ∀ n ∈ [Name.ldI, .addIVx, .ldF], n ∉ flagWriters := by decide
    exact noReg (hplain _ hi) rfl
  | store m hi =>
    have hplain : ∀ n ∈ [Name.ldB, .ldMemVx], n ∉ flagWriters := by decide
    exact noReg (hplain _ hi) rfl
  | _ => exact noReg (by simp [Instr.name, flagWriters]) rfl

/-- Settles O44: the effects that write registers write plain destinations, and two of them a flag byte last. -/
theorem onlyDestinationsAndFlagsChange : Obligations.OnlyDestinationsAndFlagsChange := fun _ _ _ h =>
  (effect_of_exec h).regsChangeAs

/-! ## What every instruction keeps -/

/-- Only the two faults change FAULT (R171). -/
theorem Effect.faultReg {i : Instr} {s t : State} (h : Effect s i t) (hne : t.faultReg ≠ s.faultReg) :
    ((∃ addr, i = .call addr) ∧ s.sp = 15#8 ∧ t = s.raise .stackOverflow) ∨
    (i = .ret ∧ s.sp = 0#8 ∧ t = s.raise .stackUnderflow) := by
  cases h with
  | underflow hsp => exact .inr ⟨rfl, hsp, rfl⟩
  | overflow addr hsp => exact .inl ⟨⟨addr, rfl⟩, hsp, rfl⟩
  | load x =>
    rw [s.loadRange_eq] at hne
    exact absurd rfl hne
  | _ => exact absurd rfl hne

/-- Every effect keeps a legal state legal: `I` and `PC` are masked, and the faults keep `SP` in its range. -/
theorem Effect.legal {i : Instr} {s t : State} (h : Effect s i t) (hs : s.Legal) : t.Legal := by
  obtain ⟨hi, hpc, hsp, hmem⟩ := hs
  cases h with
  | underflow _ => exact ⟨hi, mask12_lt _, hsp, hmem⟩
  | ret h0 => exact ⟨hi, mask12_lt _, (sub_one_toNat h0).trans_le (by omega), hmem⟩
  | overflow _ _ => exact ⟨hi, mask12_lt _, hsp, hmem⟩
  | call addr h15 =>
    have hlt : s.sp.toNat < 15 := by bv_omega
    exact ⟨hi, mask12_lt _, (add_one_toNat hlt).trans_le hlt, hmem⟩
  | jump w _ => exact ⟨hi, mask12_lt _, hsp, hmem⟩
  | index w _ => exact ⟨mask12_lt _, hpc, hsp, hmem⟩
  | store m _ hm => exact ⟨hi, hpc, hsp, hm hmem⟩
  | load x =>
    rw [s.loadRange_eq]
    exact ⟨hi, hpc, hsp, hmem⟩
  | _ => exact ⟨hi, hpc, hsp, hmem⟩

theorem stackLegal_writeStack {s : State} (hs : s.StackLegal) (k : Byte) {w : Word} (hw : w.toNat < 4096) :
    (s.writeStack k w).StackLegal := by
  intro j
  simp only [State.writeStack, Fin.getElem_fin, Vector.getElem_set]
  split
  · exact hw
  · exact hs j

/-- Every effect keeps `PC` and the stack slots below 4096: only a push writes a slot, and what it writes is `PC`. -/
theorem Effect.stackLegal {i : Instr} {s t : State} (h : Effect s i t) (hpc : s.pc.toNat < 4096) (hs : s.StackLegal) :
    t.StackLegal ∧ t.pc.toNat < 4096 := by
  cases h with
  | underflow _ => exact ⟨hs, mask12_lt _⟩
  | ret _ => exact ⟨hs, mask12_lt _⟩
  | overflow _ _ => exact ⟨hs, mask12_lt _⟩
  | call addr _ =>
    exact ⟨stackLegal_writeStack (s := { s with sp := s.sp + 1#8 }) hs _ hpc, mask12_lt _⟩
  | jump w _ => exact ⟨hs, mask12_lt _⟩
  | load x =>
    rw [s.loadRange_eq]
    exact ⟨hs, hpc⟩
  | _ => exact ⟨hs, hpc⟩

end Sys2Proof.Machine
end

section
/-!
PROOFS. One step (R15 to R17): the halted core, the unrecognised word and the decoded instruction, and from what one
instruction can do, what every step keeps and where it leaves `PC`.
-/
namespace Sys2Proof.Machine

/-! ## The three kinds of step -/

theorem step_of_failed {s : State} (h : s.Failed) : step s = .next s := if_neg h

theorem execute_of_failed {s : State} (h : s.Failed) (op : Word) : execute op s = .next s := if_neg h

theorem execute_of_decode_ok {op : Word} {i : Instr} {s : State} (hrun : s.faultReg = .none) (h : decode op = .ok i) :
    execute op s = exec i s := by
  rw [execute, if_pos hrun, h]

/-- An unrecognised word is no operation, halted or not (R68). -/
theorem execute_of_decode_error {op : Word} {e : DecodeError} (h : decode op = .error e) (s : State) :
    execute op s = .next s := by
  rw [execute, h, ite_self]

theorem step_of_running {s : State} (hrun : s.faultReg = .none) : step s = execute s.fetch s.advance := if_pos hrun

theorem step_of_decode_ok {s : State} {i : Instr} (hrun : s.faultReg = .none) (h : decode s.fetch = .ok i) :
    step s = exec i s.advance :=
  (step_of_running hrun).trans (execute_of_decode_ok hrun h)

theorem step_of_decode_error {s : State} {e : DecodeError} (hrun : s.faultReg = .none) (h : decode s.fetch = .error e) :
    step s = .next s.advance :=
  (step_of_running hrun).trans (execute_of_decode_error h s.advance)

/-- What `Execute` can do: nothing, or an instruction's effect on a core that is not halted. -/
theorem execute_cases (op : Word) (s : State) :
    ∃ t, execute op s = .next t ∧ (t = s ∨ s.faultReg = .none ∧ ∃ i, decode op = .ok i ∧ Effect s i t) := by
  by_cases hrun : s.faultReg = .none
  · cases hop : decode op with
    | error e => exact ⟨s, execute_of_decode_error hop s, .inl rfl⟩
    | ok i =>
      obtain ⟨t, ht, heffect⟩ := exec_effect i s
      exact ⟨t, (execute_of_decode_ok hrun hop).trans ht, .inr ⟨hrun, i, rfl, heffect⟩⟩
  · exact ⟨s, execute_of_failed hrun op, .inl rfl⟩

/-- What a step can do: nothing on a halted core, else the advance alone or an instruction's effect after it. -/
theorem step_cases (s : State) : ∃ t, step s = .next t ∧
    (t = s ∧ s.Failed ∨ s.faultReg = .none ∧ (t = s.advance ∨ ∃ i, decode s.fetch = .ok i ∧ Effect s.advance i t)) := by
  by_cases hrun : s.faultReg = .none
  · obtain ⟨t, ht, hsame | ⟨-, hi⟩⟩ := execute_cases s.fetch s.advance
    · exact ⟨t, (step_of_running hrun).trans ht, .inr ⟨hrun, .inl hsame⟩⟩
    · exact ⟨t, (step_of_running hrun).trans ht, .inr ⟨hrun, .inr hi⟩⟩
  · exact ⟨s, step_of_failed hrun, .inl ⟨rfl, hrun⟩⟩

/-- Settles O35: each kind of step has a next state. -/
theorem stepIsAlwaysPossible : Obligations.StepIsAlwaysPossible := fun s =>
  (step_cases s).imp fun _ => And.left

/-- What `step_cases` says of a given next state. -/
theorem cases_of_step {s t : State} (h : step s = .next t) :
    t = s ∧ s.Failed ∨ s.faultReg = .none ∧ (t = s.advance ∨ ∃ i, decode s.fetch = .ok i ∧ Effect s.advance i t) := by
  obtain ⟨u, hu, hcases⟩ := step_cases s
  cases h.symm.trans hu
  exact hcases

theorem cases_of_execute {op : Word} {s t : State} (h : execute op s = .next t) :
    t = s ∨ s.faultReg = .none ∧ ∃ i, decode op = .ok i ∧ Effect s i t := by
  obtain ⟨u, hu, hcases⟩ := execute_cases op s
  cases h.symm.trans hu
  exact hcases

/-! ## What every step keeps -/

theorem advance_legal {s : State} (hs : s.Legal) : s.advance.Legal := by
  obtain ⟨hi, -, hsp, hmem⟩ := hs
  exact ⟨hi, mask12_lt _, hsp, hmem⟩

/-- Settles O38: the advance keeps a state legal, and so does every effect after it. -/
theorem stepKeepsLegalState : Obligations.StepKeepsLegalState := by
  intro s t hs h
  obtain ⟨rfl, -⟩ | ⟨-, rfl | ⟨i, -, heffect⟩⟩ := cases_of_step h
  · exact hs
  · exact advance_legal hs
  · exact heffect.legal (advance_legal hs)

/-- Settles O41: the advance keeps `PC` and the slots in range, and so does every effect after it. -/
theorem stepKeepsStackSlotsLegal : Obligations.StepKeepsStackSlotsLegal := by
  intro s t hpc hs h
  obtain ⟨rfl, -⟩ | ⟨-, rfl | ⟨i, -, heffect⟩⟩ := cases_of_step h
  · exact ⟨hs, hpc⟩
  · exact ⟨hs, mask12_lt _⟩
  · exact heffect.stackLegal (mask12_lt _) hs

end Sys2Proof.Machine
end

section
/-!
PROOFS. Single steps (R15 to R17, R68, R193): the instruction a step runs, an unrecognised word, the idle loop, the key
wait and `PC` after every step.
-/
namespace Sys2Proof.Machine

/-- The big-endian word at `PC`, the second address wrapping (R43, R44). -/
theorem fetch_toNat (s : State) :
    s.fetch.toNat = 256 * (s.readMem s.pc.toNat).toNat + (s.readMem ((s.pc.toNat + 1) % 4096)).toNat := by
  rw [State.fetch, wordOfBytes_toNat, State.readMem, State.readMem, State.readMem, Memory.read_mod]

/-- Settles O33: the word named is the word fetched, and the step executes it on the advanced state. -/
theorem stepRunsDecodedInstruction : Obligations.StepRunsDecodedInstruction := by
  intro s op i hrun hop hi
  obtain rfl : op = s.fetch := BitVec.eq_of_toNat_eq (hop.trans (fetch_toNat s).symm)
  exact ⟨s.advance, step_of_decode_ok hrun hi, s.advance_pc_toNat, (frame_advance s).1, (frame_advance s).2,
    execute_of_decode_ok hrun hi⟩

/-- Settles O34: on an unrecognised word nothing is executed after the advance. -/
theorem unrecognisedWordIsNoOperation : Obligations.UnrecognisedWordIsNoOperation := fun s _ =>
  ⟨fun _ h => execute_of_decode_error h s, fun h hrun =>
    ⟨s.advance, step_of_decode_error hrun h, s.advance_pc_toNat, frame_advance s⟩⟩

/-! ## Steps that change nothing -/

theorem setPc_eq_self {s : State} {w : Word} (h : mask12 w = s.pc) : s.setPc w = s := by
  rw [State.setPc, h]

/-- Settles O46: the jump writes `PC` over the advance with what it was before. -/
theorem selfJumpIsFixedPoint : Obligations.SelfJumpIsFixedPoint := by
  intro s addr hrun hpc hjp haddr
  have hback : mask12 (addrWord addr) = s.pc := by
    apply BitVec.eq_of_toNat_eq
    rw [mask12_toNat, addrWord_toNat, haddr, Nat.mod_eq_of_lt hpc]
  calc
    step s = .next (s.advance.setPc (addrWord addr)) := (step_of_decode_ok hrun hjp).trans (exec_jp addr s.advance)
    _ = .next (s.setPc (addrWord addr)) := rfl
    _ = .next s := by rw [setPc_eq_self hback]

/-! ## The key wait -/

theorem step_key_wait_holds {s : State} {x : Nibble} (hrun : s.faultReg = .none) (hpc : s.pc.toNat < 4096)
    (hwait : decode s.fetch = .ok (.ldVxK x)) (hnone : s.leastKey = none) : step s = .next s := by
  rw [step_of_decode_ok hrun hwait, exec_ldVxK_of_none (s := s.advance) hnone, s.retreat_advance hpc]

/-- With no other key down, the key pressed is the least. -/
theorem leastKey_setKey {s : State} (hnone : ∀ j (_ : j < 16), s.key[j] = false) (k : Nibble) :
    (setKey k true s).leastKey = some k.toNat := by
  rw [State.leastKey_eq_some]
  refine ⟨k.isLt, Vector.getElem_set_self .., fun j hj => ?_⟩
  rw [setKey, Vector.getElem_set_ne _ _ (by omega)]
  exact hnone j (by omega)

/-- Settles O47: without a key the step undoes its advance; with the key pressed it writes the register after it. -/
theorem keyWaitHoldsUntilPress : Obligations.KeyWaitHoldsUntilPress := by
  intro font s x k hrun hpc hwait hnone
  have hhold := step_key_wait_holds hrun hpc hwait (s.leastKey_eq_none.2 hnone)
  have hpress : step (setKey k true s) = .next ((setKey k true s).advance.writeV x (BitVec.ofNat 8 k.toNat)) := by
    rw [step_of_decode_ok (s := setKey k true s) hrun hwait,
      exec_ldVxK_of_some (s := (setKey k true s).advance) (leastKey_setKey hnone k)]
  refine ⟨hhold, (setKey k true s).advance.writeV x (BitVec.ofNat 8 k.toNat), ?_, ?_, s.advance_pc_toNat⟩
  · simp only [runEvents, applyEvent, hhold, hpress]
  · rw [readV_writeV_self, toNat_ofNat_of_lt (by omega)]

/-! ## `PC` after every step -/

theorem raise_advance_pc_toNat {s : State} (hpc : s.pc.toNat < 4096) (f : FaultCode) :
    (s.advance.raise f).pc.toNat = s.pc.toNat := by
  rw [← s.pc_retreat_advance hpc]
  rfl

/-- A skip after the advance: two instructions on when it is taken, else one. -/
theorem skipIf_advance_pc_toNat (s : State) {b : Bool} {c : Prop} [Decidable c] (hb : b = true ↔ c) :
    (s.advance.skipIf b).pc.toNat = (s.pc.toNat + if c then 4 else 2) % 4096 := by
  rw [skipIf_pc_toNat, s.advance_pc_toNat]
  by_cases hc : c
  · rw [if_pos (hb.2 hc), if_pos hc]
    omega
  · rw [if_neg fun h => hc (hb.1 h), if_neg hc]

theorem leastKey_isSome (s : State) : s.leastKey.isSome = s.key.toList.any id := List.findIdx?_isSome

/-- `PC` after an instruction that runs on the advanced state (R17). -/
theorem exec_advance_pc (i : Instr) {s : State} (hpc : s.pc.toNat < 4096) :
    ∃ t, exec i s.advance = .next t ∧ t.pc.toNat = pcAfter i s := by
  cases i with
  | ret =>
    rw [exec_ret, pcAfter]
    by_cases h : s.sp = 0#8
    · exact ⟨_, if_pos h, by rw [if_pos h, raise_advance_pc_toNat hpc]⟩
    · exact ⟨_, if_neg h, by rw [if_neg h, State.pop_pc, mask12_toNat]; rfl⟩
  | call addr =>
    rw [exec_call, pcAfter]
    by_cases h : s.sp = 15#8
    · exact ⟨_, if_pos h, by rw [if_pos h, raise_advance_pc_toNat hpc]⟩
    · exact ⟨_, if_neg h, by rw [if_neg h, setPc_addrWord_pc_toNat]⟩
  | jp addr => exact ⟨_, exec_jp addr _, setPc_addrWord_pc_toNat _ addr⟩
  | jpV0 addr =>
    exact ⟨_, exec_jpV0 addr _, by rw [State.setPc_pc_toNat, offsetTarget_toNat]; rfl⟩
  | seByte x kk => exact ⟨_, exec_seByte x kk _, skipIf_advance_pc_toNat s beq_iff_eq⟩
  | sneByte x kk => exact ⟨_, exec_sneByte x kk _, skipIf_advance_pc_toNat s bne_iff_ne⟩
  | seReg x y => exact ⟨_, exec_seReg x y _, skipIf_advance_pc_toNat s beq_iff_eq⟩
  | sneReg x y => exact ⟨_, exec_sneReg x y _, skipIf_advance_pc_toNat s bne_iff_ne⟩
  | skp x => exact ⟨_, exec_skp x _, skipIf_advance_pc_toNat s Iff.rfl⟩
  | sknp x => exact ⟨_, exec_sknp x _, skipIf_advance_pc_toNat s (by rw [Bool.not_eq_true']; rfl)⟩
  | ldVxK x =>
    rw [pcAfter, ← leastKey_isSome]
    cases hkey : s.leastKey with
    | some k => exact ⟨_, exec_ldVxK_of_some (s := s.advance) hkey x, s.advance_pc_toNat⟩
    | none => exact ⟨_, exec_ldVxK_of_none (s := s.advance) hkey x, congrArg BitVec.toNat (s.pc_retreat_advance hpc)⟩
  | ldVxMem x =>
    refine ⟨_, exec_ldVxMem x _, ?_⟩
    rw [State.loadRange_eq]
    exact s.advance_pc_toNat
  | _ => exact ⟨_, rfl, s.advance_pc_toNat⟩

/-- Settles O36: an instruction leaves `PC` where the table says, an unrecognised word after the advance. -/
theorem pcAfterEveryStep : Obligations.PcAfterEveryStep := by
  intro s hpc
  refine ⟨step_of_failed, fun hrun => ?_⟩
  cases hop : decode s.fetch with
  | error e => exact ⟨s.advance, step_of_decode_error hrun hop, s.advance_pc_toNat⟩
  | ok i =>
    rw [step_of_decode_ok hrun hop]
    exact exec_advance_pc i hpc

end Sys2Proof.Machine
end

section
/-!
PROOFS. The sound timer (R22, R185): an instruction does the same whatever it holds.
-/
namespace Sys2Proof.Machine

theorem storeRange_withSt (s : State) (b : Byte) (n : Nat) :
    State.storeRange { s with st := b } n = s.storeRange n := by
  induction n with
  | zero => rfl
  | succ n ih =>
    rw [State.storeRange, ih]
    rfl

theorem loadRange_withSt (s : State) (b : Byte) (n : Nat) :
    State.loadRange { s with st := b } n = { s.loadRange n with st := b } := by
  induction n with
  | zero => rfl
  | succ n ih =>
    rw [State.loadRange, ih]
    rfl

theorem drawSprite_withSt (s : State) (b : Byte) (x0 y0 n : Nat) :
    State.drawSprite { s with st := b } x0 y0 n = s.drawSprite x0 y0 n := by
  induction n with
  | zero => rfl
  | succ n ih =>
    rw [State.drawSprite, ih]
    rfl

theorem draw_withSt (s : State) (b : Byte) (x y n : Nibble) :
    State.draw { s with st := b } x y n = { s.draw x y n with st := b } := by
  rw [State.draw, drawSprite_withSt]
  rfl

theorem skipIf_withSt (s : State) (b : Byte) (c : Bool) :
    State.skipIf { s with st := b } c = { s.skipIf c with st := b } := by
  cases c <;> rfl

/-- The sound timer holds `b` in place of what it holds in the state, or the same in both. -/
def SameButSt (b : Byte) (t t' : State) : Prop := { t' with st := t.st } = t ∧ (t'.st = b ∨ t'.st = t.st)

theorem sameButSt_withSt (b : Byte) (t : State) : SameButSt b t { t with st := b } := ⟨rfl, .inl rfl⟩

/-- An instruction runs from two states that differ in the sound timer to two such states. -/
def IgnoresSt (i : Instr) : Prop := ∀ (s : State) (b : Byte),
  ∃ t t', exec i s = .next t ∧ exec i { s with st := b } = .next t' ∧ SameButSt b t t'

/-- So does one whose outcome, as a function of the state, carries the sound timer along. -/
theorem ignoresSt_of_exec {i : Instr} {f : State → State} (hexec : ∀ s, exec i s = .next (f s))
    (hf : ∀ s b, f { s with st := b } = { f s with st := b }) : IgnoresSt i := fun s b =>
  ⟨f s, { f s with st := b }, hexec s, (hexec _).trans (congrArg _ (hf s b)), sameButSt_withSt b (f s)⟩

theorem ignoresSt_of_skip {i : Instr} {c : State → Bool} (hexec : ∀ s, exec i s = .next (s.skipIf (c s)))
    (hc : ∀ s b, c { s with st := b } = c s) : IgnoresSt i :=
  ignoresSt_of_exec hexec fun s b => by rw [hc, skipIf_withSt]

theorem ignoresSt (i : Instr) : IgnoresSt i := by
  cases i with
  | ret =>
    intro s b
    by_cases h : s.sp = 0#8
    · exact ⟨_, _, if_pos h, if_pos h, sameButSt_withSt b _⟩
    · exact ⟨_, _, if_neg h, if_neg h, sameButSt_withSt b _⟩
  | call addr =>
    intro s b
    by_cases h : s.sp = 15#8
    · exact ⟨_, _, if_pos h, if_pos h, sameButSt_withSt b _⟩
    · exact ⟨_, _, if_neg h, if_neg h, sameButSt_withSt b _⟩
  | ldVxK x =>
    intro s b
    cases h : s.leastKey with
    | some k =>
      exact ⟨_, _, exec_ldVxK_of_some h x, exec_ldVxK_of_some (s := { s with st := b }) h x, sameButSt_withSt b _⟩
    | none =>
      exact ⟨_, _, exec_ldVxK_of_none h x, exec_ldVxK_of_none (s := { s with st := b }) h x, sameButSt_withSt b _⟩
  | seByte x kk => exact ignoresSt_of_skip (exec_seByte x kk) fun _ _ => rfl
  | sneByte x kk => exact ignoresSt_of_skip (exec_sneByte x kk) fun _ _ => rfl
  | seReg x y => exact ignoresSt_of_skip (exec_seReg x y) fun _ _ => rfl
  | sneReg x y => exact ignoresSt_of_skip (exec_sneReg x y) fun _ _ => rfl
  | skp x => exact ignoresSt_of_skip (exec_skp x) fun _ _ => rfl
  | sknp x => exact ignoresSt_of_skip (exec_sknp x) fun _ _ => rfl
  | drw x y n => exact ignoresSt_of_exec (exec_drw x y n) fun s b => draw_withSt s b x y n
  | ldMemVx x => exact ignoresSt_of_exec (exec_ldMemVx x) fun s b => by rw [storeRange_withSt]
  | ldVxMem x => exact ignoresSt_of_exec (exec_ldVxMem x) fun s b => loadRange_withSt s b _
  | ldSTVx x => exact fun s b => ⟨_, _, exec_ldSTVx x s, exec_ldSTVx x _, rfl, .inr rfl⟩
  | _ => exact fun s b => ⟨_, _, rfl, rfl, sameButSt_withSt b _⟩

/-- Settles O45: the fetch and the advance do not see the sound timer, and no instruction does. -/
theorem soundTimerHasNoEffect : Obligations.SoundTimerHasNoEffect := by
  intro s t b h
  by_cases hrun : s.faultReg = .none
  · cases hop : decode s.fetch with
    | error e =>
      cases (step_of_decode_error hrun hop).symm.trans h
      exact ⟨_, step_of_decode_error (s := { s with st := b }) hrun hop, sameButSt_withSt b s.advance⟩
    | ok i =>
      obtain ⟨u, t', hu, ht', hsame⟩ := ignoresSt i s.advance b
      cases hu.symm.trans ((step_of_decode_ok hrun hop).symm.trans h)
      exact ⟨t', (step_of_decode_ok (s := { s with st := b }) hrun hop).trans ht', hsame⟩
  · cases (step_of_failed hrun).symm.trans h
    exact ⟨_, step_of_failed (s := { s with st := b }) hrun, sameButSt_withSt b s⟩

end Sys2Proof.Machine
end

section
/-!
PROOFS. Stores over code and chains of calls (R20, R50, R102): what the next fetch sees of a transfer, a call followed
by its return, and the calls that fit on an empty stack.
-/
namespace Sys2Proof.Machine

/-! ## Stored code -/

/-- A transfer that stores its bytes and leaves every other cell alone is seen so by the next fetch. -/
theorem fetchSees_of_stored {s t : State} {n : Nat} {stored : Nat → Byte} (hpc : t.pc = s.pc)
    (hin : ∀ k, k < n → t.readMem (s.effAddr k) = stored k)
    (hout : ∀ a, (∀ k, k < n → a % 4096 ≠ s.effAddr k) → t.readMem a = s.readMem a) :
    FetchSees s t n (fun k => (stored k).toNat) := by
  have hmod (a : Nat) : t.readMem (a % 4096) = t.readMem a := Memory.read_mod t.mem a
  refine ⟨fun k hk heq => ?_, fun k hk heq => ?_, fun hne => ?_, fun hne => ?_⟩
  · rw [t.fetch_div, hpc, ← hmod, ← heq, hin k hk]
  · rw [t.fetch_mod, hpc, ← hmod, ← heq, hin k hk]
  · rw [t.fetch_div, hpc, hout _ fun k hk => (hne k hk).symm]
  · rw [t.fetch_mod, hpc, hout _ fun k hk => (hne k hk).symm]

/-- Settles O48: both stores put their bytes into their cells and leave the others, and neither moves `PC`. -/
theorem storedCodeIsFetched : Obligations.StoredCodeIsFetched := by
  intro s x h
  refine ⟨⟨{ s with mem := s.storeRange (x.toNat + 1) }, exec_ldMemVx x s, rfl, ?_⟩,
    ⟨s.storeBcd (s.readV x), exec_ldB x s, rfl, ?_⟩⟩
  · exact fetchSees_of_stored rfl (fun k hk => s.storeRange_read h (by omega) hk) fun a => s.storeRange_read_ne
  · simp only [← bcdDigit_toNat]
    exact fetchSees_of_stored rfl (fun k hk => storeBcd_readMem s h _ hk) fun a => storeBcd_readMem_ne s _

/-! ## Calls and returns -/

/-- A pop after a push and a jump: the stack is all that differs. -/
theorem pop_push_setPc {s : State} (hpc : s.pc.toNat < 4096) (hsp : s.sp.toNat < 15) (w : Word) :
    (s.push.setPc w).pop = { s with stack := s.push.stack } := by
  have hlt : (s.sp + 1#8).toNat < 16 := (add_one_toNat hsp).trans_lt (by omega)
  have hslot : (s.push.setPc w).readStack (s.sp + 1#8) = s.pc := by
    rw [State.readStack_eq _ _ hlt]
    exact (s.push_stack hsp _ hlt).trans (if_pos (add_one_toNat hsp))
  have hback : mask12 ((s.push.setPc w).readStack (s.push.setPc w).sp) = s.pc := by
    rw [State.setPc_sp, State.push_sp, hslot, mask12_of_lt _ hpc]
  have hdown : (s.push.setPc w).sp - 1#8 = s.sp := BitVec.add_sub_cancel s.sp 1#8
  rw [State.pop, State.setPc, hback, hdown]
  rfl

/-- A write of the stack changes nothing else. -/
theorem frame_stack (s : State) (k : Vector Word 16) :
    SameRegsBut [] s { s with stack := k } ∧ SameBut [.stack] s { s with stack := k } :=
  ⟨sameRegs_of_v rfl [], by
    rw [sameBut_iff]
    simp [State.readMem]⟩

/-- Settles O49: the call leaves `SP` above 0, so the return is a pop, which undoes the push but for the stack. -/
theorem callThenRetRestores : Obligations.CallThenRetRestores := by
  intro s addr hpc hsp
  have hne : (s.push.setPc (addrWord addr)).sp ≠ 0#8 := by
    intro h
    have hup := add_one_toNat hsp
    rw [show s.sp + 1#8 = 0#8 from h] at hup
    exact absurd hup (by simp)
  exact ⟨s.push.setPc (addrWord addr), { s with stack := s.push.stack }, exec_call_of_lt hsp addr,
    (if_neg hne).trans (congrArg Host.Outcome.next (pop_push_setPc hpc hsp _)), rfl, rfl, frame_stack s _⟩

/-! ## Chains of calls -/

theorem execute_call {s : State} (hrun : s.faultReg = .none) (addr : Addr) :
    execute (encode (.call addr)) s = exec (.call addr) s :=
  execute_of_decode_ok hrun (decode_encode _)

theorem runEvents_cons {font : Font} {e : Event} {s t : State} (h : applyEvent font e s = .next t) (es : List Event) :
    runEvents font (e :: es) s = runEvents font es t := by
  rw [runEvents, h]

/-- As many calls fit as there are slots above `SP`. -/
theorem runEvents_calls (font : Font) (addr : Addr) {n : Nat} {s : State} (hrun : s.faultReg = .none)
    (hfit : s.sp.toNat + n ≤ 15) :
    ∃ t, runEvents font (List.replicate n (.execute (encode (.call addr)))) s = .next t ∧
      t.sp.toNat = s.sp.toNat + n ∧ t.faultReg = .none := by
  induction n generalizing s with
  | zero => exact ⟨s, rfl, rfl, hrun⟩
  | succ n ih =>
    have hlt : s.sp.toNat < 15 := by omega
    have hsp : (s.push.setPc (addrWord addr)).sp.toNat = s.sp.toNat + 1 := add_one_toNat hlt
    have hcall : applyEvent font (.execute (encode (.call addr))) s = .next (s.push.setPc (addrWord addr)) :=
      (execute_call hrun addr).trans (exec_call_of_lt hlt addr)
    obtain ⟨t, ht, htsp, htrun⟩ := ih (s := s.push.setPc (addrWord addr)) hrun (by omega)
    exact ⟨t, (runEvents_cons hcall _).trans ht, by omega, htrun⟩

/-- Settles O50: from an empty stack fifteen calls fit, and the next finds `SP = 15`. -/
theorem fifteenCallsFit : Obligations.FifteenCallsFit := by
  intro font s addr n hrun hsp hn
  have hsp0 : s.sp.toNat = 0 := by rw [hsp]; rfl
  obtain ⟨t, ht, htsp, htrun⟩ := runEvents_calls font addr (n := n) hrun (by omega)
  refine ⟨t, ht, by omega, htrun, fun h15 => ?_⟩
  have hfull : t.sp = 15#8 := BitVec.eq_of_toNat_eq (show t.sp.toNat = 15 by omega)
  exact ⟨t.raise .stackOverflow, (execute_call htrun addr).trans (if_pos hfull), rfl, rfl⟩

end Sys2Proof.Machine
end

section
/-!
PROOFS. Memory in its canonical form (notes/assumptions/10.md): two canonical memories that read alike are the same
list.
-/
namespace Sys2Proof.Machine

theorem Memory.wfFrom_cons {lo : Nat} {c : Host.Cell} {m : Memory} : Memory.wfFrom lo (c :: m) = true ↔
    lo ≤ c.1 ∧ c.1 < 4096 ∧ c.2 ≠ Memory.unlisted c.1 ∧ Memory.wfFrom (c.1 + 1) m = true := by
  simp only [Memory.wfFrom, Bool.and_eq_true, decide_eq_true_eq, and_assoc]

theorem Memory.find_cons_self (c : Host.Cell) (m : Memory) : Memory.find c.1 (c :: m) = c.2 := if_pos rfl

theorem Memory.find_cons_ne {a : Nat} {c : Host.Cell} (h : c.1 ≠ a) (m : Memory) :
    Memory.find a (c :: m) = Memory.find a m := if_neg h

/-- A canonical memory that reads at a cell other than its reset contents begins no later. -/
theorem Memory.le_of_find_ne_unlisted {lo a : Nat} {m : Memory} (hm : Memory.wfFrom lo m = true)
    (h : Memory.find a m ≠ Memory.unlisted a) : lo ≤ a := by
  by_contra hlt
  exact h (Memory.find_of_wfFrom hm (by omega))

theorem Memory.eq_of_find_eq {lo : Nat} {m m' : Memory} (hm : Memory.wfFrom lo m = true)
    (hm' : Memory.wfFrom lo m' = true) (h : ∀ a, lo ≤ a → a < 4096 → Memory.find a m = Memory.find a m') : m = m' := by
  induction m generalizing lo m' with
  | nil =>
    cases m' with
    | nil => rfl
    | cons d m' =>
      obtain ⟨hlo, hd, hne, -⟩ := Memory.wfFrom_cons.1 hm'
      exact absurd ((h d.1 hlo hd).trans (Memory.find_cons_self d m')).symm hne
  | cons c m ih =>
    obtain ⟨hlo, hc, hne, htail⟩ := Memory.wfFrom_cons.1 hm
    have hread := h c.1 hlo hc
    rw [Memory.find_cons_self] at hread
    cases m' with
    | nil => exact absurd hread hne
    | cons d m' =>
      obtain ⟨hlo', hd, hne', htail'⟩ := Memory.wfFrom_cons.1 hm'
      have hread' := h d.1 hlo' hd
      rw [Memory.find_cons_self] at hread'
      have hdc : d.1 ≤ c.1 :=
        Memory.le_of_find_ne_unlisted (Memory.wfFrom_cons.2 ⟨le_rfl, hd, hne', htail'⟩) (hread ▸ hne)
      have hcd : c.1 ≤ d.1 :=
        Memory.le_of_find_ne_unlisted (Memory.wfFrom_cons.2 ⟨le_rfl, hc, hne, htail⟩) (hread'.symm ▸ hne')
      have haddr : c.1 = d.1 := le_antisymm hcd hdc
      have hcell : c = d := by
        rw [haddr, Memory.find_cons_self] at hread
        exact Prod.ext haddr hread
      subst hcell
      refine congrArg (c :: ·) (ih htail htail' fun a ha ha' => ?_)
      have hrest := h a (by omega) ha'
      rwa [Memory.find_cons_ne (by omega), Memory.find_cons_ne (by omega)] at hrest

/-- Settles O42: by induction on the cells, the first of which must be the same. -/
theorem canonicalMemoriesAreDetermined : Obligations.CanonicalMemoriesAreDetermined := fun m m' hm hm' h =>
  Memory.eq_of_find_eq hm hm' fun a _ ha => by
    have hread := h a ha
    rwa [Memory.read, Memory.read, Nat.mod_eq_of_lt ha] at hread

end Sys2Proof.Machine
end

section
/-!
PROOFS. The host's operations (R8, R178 to R191): what each leaves behind, the state after reset with any `FONT`, and
what every schedule of them keeps.
-/
namespace Sys2Proof.Machine

/-! ## The state after reset -/

/-- Settles O39: the state after reset is a closed term. -/
theorem resetStateIsLegal : Obligations.ResetStateIsLegal := by
  unfold Obligations.ResetStateIsLegal
  decide

theorem resetWithFont_readMem (font : Font) {a : Nat} (h : a < 80) : (resetWithFont font).readMem a = font[a] := by
  have hlen : font.toList.length = 80 := font.length_toList
  have hread := Memory.read_writeList (m := State.reset.mem) rfl (a := 0) (bs := font.toList) (by omega) (k := a)
    (by omega)
  rw [Nat.zero_add] at hread
  exact hread.trans (Vector.getElem_toList ..)

/-- Beyond the font an unlisted cell is 0. -/
theorem unlisted_of_ge {a : Nat} (h : 80 ≤ a) : Memory.unlisted a = 0#8 :=
  List.getD_eq_default _ _ h

theorem resetWithFont_readMem_beyond (font : Font) {a : Nat} (h : 80 ≤ a) (ha : a < 4096) :
    (resetWithFont font).readMem a = 0#8 := by
  have hlen : font.toList.length = 80 := font.length_toList
  calc
    (resetWithFont font).readMem a = State.reset.mem.read a := Memory.read_writeList_ne fun k hk => by omega
    _ = Memory.unlisted a := by rw [Memory.read, Nat.mod_eq_of_lt ha]; rfl
    _ = 0#8 := unlisted_of_ge h

theorem resetWithFont_font : resetWithFont Config.font = State.reset := by
  rfl

theorem resetWithFont_legal (font : Font) : (resetWithFont font).Legal := by
  obtain ⟨⟨hi, hpc, hsp, -⟩, -, -⟩ := resetStateIsLegal
  exact ⟨hi, hpc, hsp, resetWithFont_wf font⟩

/-- Settles O52: the font is written over the memory of the state after reset, and nothing else is. -/
theorem fontParameterIsResetContents : Obligations.FontParameterIsResetContents :=
  ⟨resetWithFont_font, by rw [coreWithFont, resetWithFont_font]; rfl, fun font =>
    ⟨fun a h => resetWithFont_readMem font h, fun a h ha => resetWithFont_readMem_beyond font h ha,
      resetWithFont_legal font, frame_mem State.reset _⟩⟩

theorem applyEvent_reset (font : Font) (s : State) : applyEvent font .reset s = .next (hostReset font s) := rfl

theorem map_readMem_eq_take (font : Font) {t : State} (h : ∀ (a : Nat) (ha : a < 80), t.readMem a = font[a]) :
    (List.range 5).map t.readMem = font.toList.take 5 := by
  refine List.ext_getElem (by simp) fun k hk _ => ?_
  have hk : k < 80 := by simp at hk; omega
  rw [List.getElem_map, List.getElem_range, h k hk, List.getElem_take, Vector.getElem_toList]

/-- Settles O51: the event is the state after reset with the machine's font, whose bytes the memory laws read back. -/
theorem resetPutsEveryPiece : Obligations.ResetPutsEveryPiece := by
  refine ⟨by unfold GlyphZero; decide, fun font s => ?_⟩
  have hfont (a : Nat) (h : a < 80) : (hostReset font s).readMem a = font[a] := resetWithFont_readMem font h
  exact ⟨hostReset font s, applyEvent_reset font s, fun r => Vector.getElem_replicate .., rfl, rfl, rfl, rfl, rfl,
    hfont, fun hzero => (map_readMem_eq_take font hfont).trans hzero,
    fun a h ha => resetWithFont_readMem_beyond font h ha, fun r h => Vector.getElem_replicate h,
    fun k h => Vector.getElem_replicate h, fun k h => Vector.getElem_replicate h, rfl, rfl⟩

/-! ## Timers -/

theorem applyEvent_timerTick (font : Font) (s : State) : applyEvent font .timerTick s = .next (timerTick s) := rfl

theorem countDown_toNat (b : Byte) : (countDown b).toNat = b.toNat - 1 := by
  by_cases h : b = 0#8
  · rw [h]
    rfl
  · rw [countDown, if_neg h, sub_one_toNat h]

theorem frame_timerTick (s : State) : SameRegsBut [] s (timerTick s) ∧ SameBut [.dt, .st] s (timerTick s) :=
  ⟨sameRegs_of_v rfl [], by
    rw [sameBut_iff]
    simp [timerTick, State.readMem]⟩

/-- Settles O53: each timer is counted down by itself. -/
theorem timerTickCountsDown : Obligations.TimerTickCountsDown := fun font s =>
  ⟨timerTick s, applyEvent_timerTick font s, countDown_toNat s.dt, countDown_toNat s.st, frame_timerTick s⟩

/-! ## Loading an image -/

theorem loadROM_of_le {bytes : List Byte} (h : bytes.length ≤ 3584) (s : State) :
    loadROM bytes s = .next { s with mem := s.mem.writeList 0x200 bytes } := if_pos h

theorem loadROM_of_lt {bytes : List Byte} (h : 3584 < bytes.length) (s : State) :
    loadROM bytes s = .refused .romTooLong := if_neg (Nat.not_le.2 h)

/-- Settles O56: an image that fits is a sequence of writes that stays below the top of memory. -/
theorem loadRomCopiesImage : Obligations.LoadRomCopiesImage := by
  refine ⟨fun font s bytes hwf hlen => ?_, fun font s bytes hlen => loadROM_of_lt hlen s⟩
  exact ⟨{ s with mem := s.mem.writeList 0x200 bytes }, loadROM_of_le hlen s,
    fun k hk => Memory.read_writeList hwf (by omega) hk,
    fun a ha hout => Memory.read_writeList_ne fun k hk => by omega, frame_mem s _⟩

/-- Byte `j` of word `k` stands at place `2 * k + j` of the image (R80). -/
theorem serialize_getElem? (ws : List Word) {k : Nat} (hk : k < ws.length) :
    (serialize ws)[2 * k]? = some ((ws[k] >>> 8).setWidth 8) ∧
      (serialize ws)[2 * k + 1]? = some (ws[k].setWidth 8) := by
  induction ws generalizing k with
  | nil => cases hk
  | cons w ws ih =>
    cases k with
    | zero => exact ⟨rfl, rfl⟩
    | succ k => exact ih (k := k) (Nat.lt_of_succ_lt_succ hk)

/-- Settles O57: the two bytes of a word are read back from the loaded image and make the word again. -/
theorem serialisedWordsAreFetched : Obligations.SerialisedWordsAreFetched := by
  intro font s ws hwf hlen
  have hbytes : (serialize ws).length = 2 * ws.length := serialize_length ws
  refine ⟨hbytes, _, loadROM_of_le (bytes := serialize ws) (by omega) s, fun k hk pc hpc => ?_⟩
  obtain ⟨hhi, hlo⟩ := serialize_getElem? ws hk
  obtain ⟨_, hhi⟩ := List.getElem?_eq_some_iff.1 hhi
  obtain ⟨_, hlo⟩ := List.getElem?_eq_some_iff.1 hlo
  have hread {j : Nat} (hj : j < (serialize ws).length) :
      (s.mem.writeList 0x200 (serialize ws)).read (0x200 + j) = (serialize ws)[j] :=
    Memory.read_writeList hwf (by omega) hj
  calc
    State.fetch { s with pc := pc, mem := s.mem.writeList 0x200 (serialize ws) }
      = wordOfBytes ((s.mem.writeList 0x200 (serialize ws)).read (0x200 + 2 * k))
          ((s.mem.writeList 0x200 (serialize ws)).read (0x200 + (2 * k + 1))) := by
        rw [State.fetch, State.readMem, State.readMem, hpc]
        rfl
    _ = wordOfBytes ((ws[k] >>> 8).setWidth 8) (ws[k].setWidth 8) := by
        rw [hread (by omega), hread (by omega), hhi, hlo]
    _ = ws[k] := wordOfBytes_bytesOfWord ws[k]

/-! ## Peek and poke -/

/-- A legal poke is seen by a peek of its element. -/
theorem peek_pokeState_self {e : Element} {n : Nat} (hn : pokeLegal e n = true) {s : State} (hs : s.Legal) :
    peek e (pokeState e n s) = n := by
  obtain ⟨-, -, -, hmem⟩ := hs
  cases e with
  | v x =>
    rw [peek, pokeState, readV_writeV_self]
    exact toNat_ofNat_of_lt (of_decide_eq_true hn)
  | i =>
    have hn : n < 4096 := of_decide_eq_true hn
    exact toNat_ofNat_of_lt (by omega)
  | pc =>
    have hn : n < 4096 := of_decide_eq_true hn
    exact toNat_ofNat_of_lt (by omega)
  | sp =>
    have hn : n < 16 := of_decide_eq_true hn
    exact toNat_ofNat_of_lt (by omega)
  | stack k =>
    rw [peek, pokeState, Vector.getElem_set_self]
    exact toNat_ofNat_of_lt (of_decide_eq_true hn)
  | dt => exact toNat_ofNat_of_lt (of_decide_eq_true hn)
  | st => exact toNat_ofNat_of_lt (of_decide_eq_true hn)
  | mem a =>
    rw [peek, pokeState, State.readMem, State.writeMem_mem, Memory.read_write_self hmem _ rfl]
    exact toNat_ofNat_of_lt (of_decide_eq_true hn)
  | disp r =>
    rw [peek, pokeState, readRow_writeRow _ r.isLt, if_pos rfl]
    exact toNat_ofNat_of_lt (of_decide_eq_true hn)
  | key k =>
    have hn : n < 2 := of_decide_eq_true hn
    rw [peek, pokeState, readKey_setKey, if_pos rfl]
    interval_cases n <;> rfl
  | fault => cases hn

/-- A poke is not seen by a peek of any other element. -/
theorem peek_pokeState_ne {e e' : Element} (h : e' ≠ e) (n : Nat) (s : State) :
    peek e' (pokeState e n s) = peek e' s := by
  cases e with
  | v x =>
    cases e' with
    | v y =>
      have hyx : y ≠ x := fun hyx => h (congrArg Element.v hyx)
      rw [peek, pokeState, State.readV_writeV, if_neg hyx, peek]
    | _ => rfl
  | stack k =>
    cases e' with
    | stack j =>
      have hkj : k.toNat ≠ j.toNat := fun hkj => h (congrArg Element.stack (BitVec.eq_of_toNat_eq hkj.symm))
      rw [peek, pokeState, Vector.getElem_set_ne _ _ hkj, peek]
    | _ => rfl
  | mem a =>
    cases e' with
    | mem c =>
      have hca : c.toNat ≠ a.toNat := fun hca => h (congrArg Element.mem (BitVec.eq_of_toNat_eq hca))
      rw [peek, pokeState, State.readMem, State.writeMem_mem, Memory.read_write_ne _ (by omega), peek, State.readMem]
    | _ => rfl
  | disp r =>
    cases e' with
    | disp q =>
      have hqr : q.toNat ≠ r.toNat := fun hqr => h (congrArg Element.disp (BitVec.eq_of_toNat_eq hqr))
      rw [peek, pokeState, readRow_writeRow _ r.isLt, if_neg hqr, peek]
    | _ => rfl
  | key k =>
    cases e' with
    | key j =>
      have hjk : j ≠ k := fun hjk => h (congrArg Element.key hjk)
      rw [peek, pokeState, readKey_setKey, if_neg hjk, peek]
    | _ => rfl
  | i =>
    cases e' with
    | i => exact absurd rfl h
    | _ => rfl
  | pc =>
    cases e' with
    | pc => exact absurd rfl h
    | _ => rfl
  | sp =>
    cases e' with
    | sp => exact absurd rfl h
    | _ => rfl
  | dt =>
    cases e' with
    | dt => exact absurd rfl h
    | _ => rfl
  | st =>
    cases e' with
    | st => exact absurd rfl h
    | _ => rfl
  | fault => rfl

theorem pokeState_draws (e : Element) (n : Nat) (s : State) : (pokeState e n s).draws = s.draws := by
  cases e <;> rfl

theorem applyEvent_poke_of_legal {e : Element} {n : Nat} (h : pokeLegal e n = true) (font : Font) (s : State) :
    applyEvent font (.poke e n) s = .next (pokeState e n s) := if_pos h

theorem applyEvent_poke_of_not_legal {e : Element} {n : Nat} (h : ¬ pokeLegal e n = true) (font : Font) (s : State) :
    applyEvent font (.poke e n) s = .refused .pokeRefused := if_neg h

/-- The bound below which the model accepts a poke is the bound of the element. -/
theorem pokesBelow_of_legal {e : Element} {bound : Nat} (h : ∀ n, pokeLegal e n = decide (n < bound)) :
    PokesBelow e bound := by
  intro font s n hs
  refine ⟨fun hn => ?_, fun hn => ?_⟩
  · have hlegal : pokeLegal e n = true := (h n).trans (decide_eq_true hn)
    exact ⟨pokeState e n s, applyEvent_poke_of_legal hlegal font s, peek_pokeState_self hlegal hs,
      fun e' he' => peek_pokeState_ne he' n s, pokeState_draws e n s⟩
  · refine applyEvent_poke_of_not_legal ?_ font s
    rw [h n, decide_eq_true_eq]
    omega

/-- Settles O55: the bounds are those of the model's check, which no value of FAULT passes. -/
theorem pokeThenPeek : Obligations.PokeThenPeek := by
  refine ⟨fun _ => pokesBelow_of_legal fun _ => rfl, pokesBelow_of_legal fun _ => rfl, pokesBelow_of_legal fun _ => rfl,
    pokesBelow_of_legal fun _ => rfl, fun _ => pokesBelow_of_legal fun _ => rfl, pokesBelow_of_legal fun _ => rfl,
    pokesBelow_of_legal fun _ => rfl, fun _ => pokesBelow_of_legal fun _ => rfl,
    fun _ => pokesBelow_of_legal fun _ => rfl, fun _ => pokesBelow_of_legal fun _ => rfl,
    fun font s n => applyEvent_poke_of_not_legal (e := .fault) (n := n) Bool.false_ne_true font s, fun _ _ _ => rfl⟩

/-! ## FAULT under every operation -/

theorem pokeState_faultReg (e : Element) (n : Nat) (s : State) : (pokeState e n s).faultReg = s.faultReg := by
  cases e <;> rfl

/-- An accepted image or value changes the state as `loadROM` and `pokeState` say. -/
theorem eq_of_loadROM {bytes : List Byte} {s t : State} (h : loadROM bytes s = .next t) :
    t = { s with mem := s.mem.writeList 0x200 bytes } := by
  by_cases hlen : bytes.length ≤ 3584
  · cases (loadROM_of_le hlen s).symm.trans h
    rfl
  · cases (loadROM_of_lt (Nat.not_le.1 hlen) s).symm.trans h

theorem eq_of_poke {font : Font} {e : Element} {n : Nat} {s t : State}
    (h : applyEvent font (.poke e n) s = .next t) : pokeLegal e n = true ∧ t = pokeState e n s := by
  by_cases hlegal : pokeLegal e n = true
  · cases (applyEvent_poke_of_legal hlegal font s).symm.trans h
    exact ⟨hlegal, rfl⟩
  · cases (applyEvent_poke_of_not_legal hlegal font s).symm.trans h

theorem faultReg_of_applyEvent {font : Font} {e : Event} {s t : State} (hs : s.Failed)
    (h : applyEvent font e s = .next t) (he : e ≠ .reset) : t.faultReg = s.faultReg := by
  cases e with
  | step =>
    cases (step_of_failed hs).symm.trans h
    rfl
  | execute op =>
    cases (execute_of_failed hs op).symm.trans h
    rfl
  | reset => exact absurd rfl he
  | loadROM bytes =>
    rw [eq_of_loadROM h]
  | poke e n =>
    rw [(eq_of_poke h).2, pokeState_faultReg]
  | _ =>
    cases h
    rfl

theorem frame_faultReg (s : State) (f : FaultCode) :
    SameRegsBut [] s { s with faultReg := f } ∧ SameBut [.fault] s { s with faultReg := f } :=
  ⟨sameRegs_of_v rfl [], by
    rw [sameBut_iff]
    simp [State.readMem]⟩

/-- A fault raised by a step undoes the advance, so FAULT alone differs. -/
theorem raise_advance {s : State} (hpc : s.pc.toNat < 4096) (f : FaultCode) :
    s.advance.raise f = { s with faultReg := f } := by
  rw [State.raise, s.retreat_advance hpc]

theorem step_fault_precise {s t : State} (hpc : s.pc.toNat < 4096) (h : step s = .next t)
    (hne : t.faultReg ≠ s.faultReg) : s.faultReg = .none ∧ ∃ f, t = { s with faultReg := f } := by
  obtain ⟨rfl, -⟩ | ⟨hrun, rfl | ⟨i, -, heffect⟩⟩ := cases_of_step h
  · exact absurd rfl hne
  · exact absurd rfl hne
  · obtain ⟨-, -, rfl⟩ | ⟨-, -, rfl⟩ := heffect.faultReg hne
    · exact ⟨hrun, _, raise_advance hpc _⟩
    · exact ⟨hrun, _, raise_advance hpc _⟩

/-- Settles O37: only the two fault effects write FAULT, a step undoes its advance there, and a halted core does
nothing. -/
theorem faultsArePreciseAndSticky : Obligations.FaultsArePreciseAndSticky := by
  refine ⟨fun i s t h hne => ?_, fun s t hpc h hne => ?_, fun _ _ _ _ hs h he => faultReg_of_applyEvent hs h he,
    fun s op hs => ⟨step_of_failed hs, execute_of_failed hs op⟩⟩
  · obtain ⟨hi, hsp, rfl⟩ | ⟨hi, hsp, rfl⟩ := (effect_of_exec h).faultReg hne
    · exact .inl ⟨hi, hsp, rfl⟩
    · exact .inr ⟨hi, hsp, rfl⟩
  · obtain ⟨hrun, f, rfl⟩ := step_fault_precise hpc h hne
    exact ⟨hrun, frame_faultReg s f⟩

/-! ## Schedules -/

theorem pokeState_legal {e : Element} {n : Nat} (hn : pokeLegal e n = true) {s : State} (hs : s.Legal) :
    (pokeState e n s).Legal := by
  have hself := peek_pokeState_self hn hs
  obtain ⟨hi, hpc, hsp, hmem⟩ := hs
  cases e with
  | i => exact ⟨hself.trans_lt (of_decide_eq_true hn), hpc, hsp, hmem⟩
  | pc => exact ⟨hi, hself.trans_lt (of_decide_eq_true hn), hsp, hmem⟩
  | sp => exact ⟨hi, hpc, hself.trans_le (Nat.le_of_lt_succ (of_decide_eq_true hn)), hmem⟩
  | mem a => exact ⟨hi, hpc, hsp, Memory.wf_write hmem _ _⟩
  | _ => exact ⟨hi, hpc, hsp, hmem⟩

theorem execute_legal {op : Word} {s t : State} (hs : s.Legal) (h : execute op s = .next t) : t.Legal := by
  obtain rfl | ⟨-, i, -, heffect⟩ := cases_of_execute h
  · exact hs
  · exact heffect.legal hs

theorem applyEvent_legal {font : Font} {e : Event} {s t : State} (hs : s.Legal) (h : applyEvent font e s = .next t) :
    t.Legal := by
  cases e with
  | step => exact stepKeepsLegalState s t hs h
  | execute op => exact execute_legal hs h
  | reset =>
    cases h
    exact resetWithFont_legal font
  | loadROM bytes =>
    obtain ⟨hi, hpc, hsp, hmem⟩ := hs
    rw [eq_of_loadROM h]
    exact ⟨hi, hpc, hsp, Memory.wf_writeList hmem _ _⟩
  | poke e n =>
    obtain ⟨hlegal, rfl⟩ := eq_of_poke h
    exact pokeState_legal hlegal hs
  | _ =>
    cases h
    exact hs

/-- A schedule that begins with an event is that event and the schedule after it. -/
theorem exists_of_runEvents_cons {font : Font} {e : Event} {es : List Event} {s t : State}
    (h : runEvents font (e :: es) s = .next t) :
    ∃ u, applyEvent font e s = .next u ∧ runEvents font es u = .next t := by
  rw [runEvents] at h
  split at h
  case h_1 u hu => exact ⟨u, hu, h⟩
  all_goals cases h

/-- What every event of a schedule keeps, the schedule keeps. -/
theorem runEvents_induction {font : Font} {P : State → Prop} {es : List Event}
    (hstep : ∀ e ∈ es, ∀ s t, P s → applyEvent font e s = .next t → P t) {s t : State} (hs : P s)
    (h : runEvents font es s = .next t) : P t := by
  induction es generalizing s with
  | nil =>
    cases h
    exact hs
  | cons e es ih =>
    obtain ⟨he, hes⟩ := List.forall_mem_cons.1 hstep
    obtain ⟨u, hu, hrest⟩ := exists_of_runEvents_cons h
    exact ih hes (he s u hs hu) hrest

/-- Settles O40: every event keeps a legal state legal. -/
theorem everyScheduleKeepsLegalState : Obligations.EveryScheduleKeepsLegalState := fun _ _ _ _ hs h =>
  runEvents_induction (fun _ _ _ _ hs h => applyEvent_legal hs h) hs h

/-- Settles O58: a tick changes the timers alone and a key event the keys alone. -/
theorem ticksAndKeysLeaveProgramState : Obligations.TicksAndKeysLeaveProgramState := by
  intro font es s t hes h
  refine runEvents_induction (P := fun u => SameRegsBut [] s u ∧ SameBut [.dt, .st, .key] s u) ?_
    ⟨SameRegsBut.refl [] s, SameBut.refl _ s⟩ h
  rintro e he u u' ⟨hregs, hparts⟩ hu
  obtain rfl | ⟨k, b, rfl⟩ := hes e he
  · cases hu
    obtain ⟨htregs, htparts⟩ := frame_timerTick u
    exact ⟨hregs.trans htregs, hparts.trans (htparts.mono (by simp))⟩
  · cases hu
    obtain ⟨hkregs, hkparts⟩ := frame_setKey k b u
    exact ⟨hregs.trans hkregs, hparts.trans (hkparts.mono (by simp))⟩

end Sys2Proof.Machine
end
